-- ==== Sys2Proof/Word.lean ====
section
/-! DEFINITION. The FCE's data types: bytes, 32-bit words and 8-byte blocks (00_scope.md R11). -/

namespace Sys2Proof

/-- A byte is 8 bits (R11). -/
abbrev Byte := BitVec 8

/-- A word is 32 bits (R11); every register and RAM entry is one word or part of one. -/
abbrev Word := BitVec 32

/-- A block is 8 bytes held as two words: `L` is word 0 (bytes 0..3, the left half), `R` is word 1
(bytes 4..7, the right half) (R11). -/
@[ext]
structure Block where
  L : Word
  R : Word
  deriving DecidableEq, Repr

/-- The block of eight zero bytes. -/
def Block.zero : Block := ⟨0, 0⟩

end Sys2Proof
end

