-- ==== Sys2Proof/Config.lean ====
section
/-! DEFINITION. What an FCE's configuration fixes (00_scope.md R7) and the free values the spec leaves open. -/

namespace Sys2Proof

/-- The two size parameters of R7. A model takes them as arguments, so State carries them (log 1). -/
structure Params where
  /-- KEY_DEPTH: the number of round-key entries in key RAM. -/
  keyDepth : Nat
  /-- MSG_BYTES: the size in bytes of the message buffer. -/
  msgBytes : Nat
  deriving DecidableEq, Repr

/-- The legal values of R7: KEY_DEPTH in 1..256, MSG_BYTES a multiple of 8 in 8..8192. -/
abbrev Params.legal (p : Params) : Prop :=
  1 ≤ p.keyDepth ∧ p.keyDepth ≤ 256 ∧ p.msgBytes % 8 = 0 ∧ 8 ≤ p.msgBytes ∧ p.msgBytes ≤ 8192

/-- The reference configuration of R7. -/
def Params.reference : Params := ⟨256, 1024⟩

namespace Config

/-- RAM_INIT (R7, R232): the byte a RAM cell holds before anything writes it, for the draw numbered `epoch`
(one per power-on, and one more for the message buffer per reset of R231) and the cell's offset. A free
value: nothing constrains it (log 5, log 6). -/
opaque ramInit : Nat → Nat → Byte

/-- The unspecified word a read of a result register or of MSG returns while STATUS.BUSY = 1 (R67), and what
a hidden 32-bit register holds after a reset (R44, R46, R230). A free value, one per number (log 7, log 8). -/
opaque freeWord : Nat → Word

/-- What a hidden counter holds after a reset (R45, R46, R230). A free value (log 8). -/
opaque freeCount : Nat → Nat

/-- FCE_BASE / 16 KiB: the platform's choice of the window's place (R7, R68; log 15). -/
opaque fceBaseIndex : Nat

/-- FCE_BASE: the bus address of offset 0x0000, a multiple of 16 KiB (R7). -/
def fceBase : Nat := 0x4000 * fceBaseIndex

end Config

end Sys2Proof
end

