-- ==== Sys2Proof/Syntax.lean ====
section
/-! DEFINITION. The command set FCE-1: one constructor per row of spec/opcode_table.json (30_encoding.md R92). -/

namespace Sys2Proof

/-- The feedback select of the block commands, command bit S: 1 = seed from IV, 0 = continue from CHAIN
(30_encoding.md R90, 43_cbc.md R167). -/
inductive Feedback where
  | chain
  | iv
  deriving DecidableEq, Repr

/-- The ten commands (R92). The operands a command word names are S and KIDX; all others are fixed registers
(R91). -/
inductive Instr where
  /-- NOP (R113). -/
  | nop
  /-- ECB_ENC (R145). -/
  | ecbEnc
  /-- ECB_DEC (R146). -/
  | ecbDec
  /-- RF_EVAL k (R131): `kidx` is the round-key index, bits [15:8] of the word. -/
  | rfEval (kidx : Nat)
  /-- CBC_ENC_BLK IV | CHAIN (R165). -/
  | cbcEncBlk (sel : Feedback)
  /-- CBC_DEC_BLK IV | CHAIN (R166). -/
  | cbcDecBlk (sel : Feedback)
  /-- PAD_CHECK (R190). -/
  | padCheck
  /-- CBC_ENC (R171). -/
  | cbcEnc
  /-- CBC_DEC_RAW (R176). -/
  | cbcDecRaw
  /-- CBC_DEC (R178). -/
  | cbcDec
  deriving DecidableEq, Repr

end Sys2Proof
end

