-- ==== Sys2Proof/WellFormed.lean ====
section
/-! DEFINITION. Which terms of Instr a command word can hold: KIDX is 8 bits (30_encoding.md R90, R91). -/

namespace Sys2Proof

/-- A command is well formed when its operand fits its field: KIDX is 0..255 (R90). Every other operand is
bounded by its type. -/
def Instr.wellFormed : Instr → Bool
  | .nop => true
  | .ecbEnc => true
  | .ecbDec => true
  | .rfEval k => decide (k ≤ 255)
  | .cbcEncBlk _ => true
  | .cbcDecBlk _ => true
  | .padCheck => true
  | .cbcEnc => true
  | .cbcDecRaw => true
  | .cbcDec => true

end Sys2Proof
end

