-- ==== Sys2Proof/Decode.lean ====
section
/-! DEFINITION. Command words to commands and back (30_encoding.md R90 to R94). Every 32-bit word decodes the
same way (R90); a word that is not legal is rejected under the name of the field that makes it so. -/

namespace Sys2Proof

/-- Bits [3:0] of a command word (R90). -/
def opField (w : Word) : Nat := (w.extractLsb' 0 4).toNat

/-- Bit 4 of a command word (R90). -/
def sField (w : Word) : Bool := w.getLsbD 4

/-- Bits [7:5] of a command word, reserved (R90). -/
def lowReservedField (w : Word) : Nat := (w.extractLsb' 5 3).toNat

/-- Bits [15:8] of a command word (R90), zero-extended to an index (R91). -/
def kidxField (w : Word) : Nat := (w.extractLsb' 8 8).toNat

/-- Bits [31:16] of a command word, reserved (R90). -/
def highReservedField (w : Word) : Nat := (w.extractLsb' 16 16).toNat

/-- The feedback that bit S selects (R90, R167). -/
def feedbackOfS (s : Bool) : Feedback := if s then .iv else .chain

/-- Bit S of a feedback select (R90). -/
def sOfFeedback : Feedback → Bool
  | .iv => true
  | .chain => false

/-- Why a command word is illegal (R93); each name is one clause of R93. -/
inductive IllegalWord where
  /-- OP is 0xA..0xF. -/
  | reservedOp
  /-- Bits [7:5] are not zero. -/
  | lowReserved
  /-- Bits [31:16] are not zero. -/
  | highReserved
  /-- S is set outside OP 0x4 and 0x5. -/
  | straySelect
  /-- KIDX is not zero outside OP 0x3. -/
  | strayKeyIndex
  deriving DecidableEq, Repr

/-- A command that uses neither S nor KIDX: both fields must be zero (R93). -/
def decodePlain (w : Word) (i : Instr) : Except IllegalWord Instr :=
  if sField w then .error .straySelect
  else if kidxField w ≠ 0 then .error .strayKeyIndex
  else .ok i

/-- RF_EVAL uses KIDX; S must be zero (R93). -/
def decodeRfEval (w : Word) : Except IllegalWord Instr :=
  if sField w then .error .straySelect else .ok (.rfEval (kidxField w))

/-- The block commands use S; KIDX must be zero (R93). -/
def decodeBlk (w : Word) (c : Feedback → Instr) : Except IllegalWord Instr :=
  if kidxField w ≠ 0 then .error .strayKeyIndex else .ok (c (feedbackOfS (sField w)))

/-- The command the OP field selects (R92). -/
def decodeOp (w : Word) : Except IllegalWord Instr :=
  match opField w with
  | 0x0 => decodePlain w .nop
  | 0x1 => decodePlain w .ecbEnc
  | 0x2 => decodePlain w .ecbDec
  | 0x3 => decodeRfEval w
  | 0x4 => decodeBlk w .cbcEncBlk
  | 0x5 => decodeBlk w .cbcDecBlk
  | 0x6 => decodePlain w .padCheck
  | 0x7 => decodePlain w .cbcEnc
  | 0x8 => decodePlain w .cbcDecRaw
  | 0x9 => decodePlain w .cbcDec
  | _ => .error .reservedOp

/-- The decoder: total on all 32-bit words (R90, R93). -/
def decode (w : Word) : Except IllegalWord Instr :=
  if highReservedField w ≠ 0 then .error .highReserved
  else if lowReservedField w ≠ 0 then .error .lowReserved
  else decodeOp w

/-- A command word from its fields OP, S and KIDX; the reserved fields are zero (R90). -/
def commandWord (op : BitVec 4) (s : Bool) (kidx : BitVec 8) : Word :=
  0#16 ++ kidx ++ 0#3 ++ BitVec.ofBool s ++ op

/-- The encoder: the command word of a well-formed command (R92). -/
def encode : Instr → Word
  | .nop => commandWord 0x0 false 0
  | .ecbEnc => commandWord 0x1 false 0
  | .ecbDec => commandWord 0x2 false 0
  | .rfEval k => commandWord 0x3 false (BitVec.ofNat 8 k)
  | .cbcEncBlk sel => commandWord 0x4 (sOfFeedback sel) 0
  | .cbcDecBlk sel => commandWord 0x5 (sOfFeedback sel) 0
  | .padCheck => commandWord 0x6 false 0
  | .cbcEnc => commandWord 0x7 false 0
  | .cbcDecRaw => commandWord 0x8 false 0
  | .cbcDec => commandWord 0x9 false 0

/-- One row of the match/mask list of R92: a word encodes the row's command iff `w AND mask = match`. -/
structure OpcodeRow where
  mnemonic : String
  pattern : Word
  mask : Word
  deriving DecidableEq, Repr

/-- `w AND mask = match` (R92). -/
def OpcodeRow.fits (r : OpcodeRow) (w : Word) : Bool := w &&& r.mask == r.pattern

/-- The match/mask list of R92. -/
def opcodeRows : List OpcodeRow :=
  [⟨"NOP", 0x00000000, 0xFFFFFFFF⟩, ⟨"ECB_ENC", 0x00000001, 0xFFFFFFFF⟩,
   ⟨"ECB_DEC", 0x00000002, 0xFFFFFFFF⟩, ⟨"RF_EVAL", 0x00000003, 0xFFFF00FF⟩,
   ⟨"CBC_ENC_BLK", 0x00000004, 0xFFFFFFEF⟩, ⟨"CBC_DEC_BLK", 0x00000005, 0xFFFFFFEF⟩,
   ⟨"PAD_CHECK", 0x00000006, 0xFFFFFFFF⟩, ⟨"CBC_ENC", 0x00000007, 0xFFFFFFFF⟩,
   ⟨"CBC_DEC_RAW", 0x00000008, 0xFFFFFFFF⟩, ⟨"CBC_DEC", 0x00000009, 0xFFFFFFFF⟩]

/-- The mnemonic of a command (R92). -/
def Instr.mnemonic : Instr → String
  | .nop => "NOP"
  | .ecbEnc => "ECB_ENC"
  | .ecbDec => "ECB_DEC"
  | .rfEval _ => "RF_EVAL"
  | .cbcEncBlk _ => "CBC_ENC_BLK"
  | .cbcDecBlk _ => "CBC_DEC_BLK"
  | .padCheck => "PAD_CHECK"
  | .cbcEnc => "CBC_ENC"
  | .cbcDecRaw => "CBC_DEC_RAW"
  | .cbcDec => "CBC_DEC"

/-- The commands that work on the message buffer: CBC_ENC, CBC_DEC_RAW, CBC_DEC (43_cbc.md R171, R176, R178). -/
def Instr.isBufferCommand : Instr → Bool
  | .nop => false
  | .ecbEnc => false
  | .ecbDec => false
  | .rfEval _ => false
  | .cbcEncBlk _ => false
  | .cbcDecBlk _ => false
  | .padCheck => false
  | .cbcEnc => true
  | .cbcDecRaw => true
  | .cbcDec => true

/-- The word `w` is the in-flight word of a buffer command; an illegal word is none (R94; log 14). -/
def isBufferWord (w : Word) : Bool :=
  match decode w with
  | .ok i => i.isBufferCommand
  | .error _ => false

/-- The command the decoder reads from an opcode-table word of `nbits` bits, bit 0 the least significant bit
of the one 32-bit command word (R90); every bit above `nbits` is zero. -/
def decodeTableWord (nbits w : Nat) : Option Instr :=
  let v := w % 2 ^ nbits
  if v < 2 ^ 32 then
    match decode (BitVec.ofNat 32 v) with
    | .ok i => some i
    | .error _ => none
  else none

end Sys2Proof
end

