-- ==== Sys2Proof/Machine/State.lean ====
section
/-! DEFINITION. The FCE's state as plain data (10_state.md), the reasons a step or an access can fail, and the
state after reset (70_reset_and_hazards.md R230). -/

namespace Sys2Proof.Machine

/-- Why a host access is answered with `bus_err` (20_memory.md R62). The FCE has no condition that stops it: no
meaning and no step answers a fault. This reason is raised by `hostAccess` and recorded in `State.resp`, and the
machine goes on unchanged, as R62 says (log 9). Safe. -/
inductive Fault where
  /-- The access is not an aligned word access: raised by `hostAccess`. Safe. -/
  | busErr
  deriving DecidableEq, Repr

/-- Why a command has no meaning. -/
inductive Refusal where
  /-- Raised by an arm of `exec` whose command has no meaning yet. Safe. No arm uses it. -/
  | notModelled (mnemonic : String)
  deriving DecidableEq, Repr

/-- STATUS.ERR: the error codes of 60_exceptions.md R201. Codes 0x6 to 0xF are never produced (R201). -/
inductive ErrCode where
  /-- 0x0: the command completed without error. -/
  | none
  /-- 0x1, E_ILLEGAL_CMD. -/
  | illegalCmd
  /-- 0x2, E_BAD_NROUNDS. -/
  | badNrounds
  /-- 0x3, E_BAD_LEN. -/
  | badLen
  /-- 0x4, E_BAD_PAD. -/
  | badPad
  /-- 0x5, E_BAD_KIDX. -/
  | badKidx
  deriving DecidableEq, Repr

/-- The three RAMs (10_state.md R41 to R43), as the bytes written since their draw: cells (offset in the window,
byte), offsets strictly rising. A byte not listed holds its draw of RAM_INIT (R232): `ramEpoch` numbers the draw of
the S-box and key RAMs, `msgEpoch` that of the message buffer (log 5, log 6). -/
structure Memory where
  cells    : List Host.Cell
  ramEpoch : Nat
  msgEpoch : Nat
  deriving DecidableEq, Repr

/-- The operand snapshot taken at acceptance (10_state.md R47, 40_control.md R111): every register a command reads,
and the S-box, key and message RAMs. -/
structure Operands where
  nrounds : BitVec 9
  len     : BitVec 14
  iv      : Block
  blkIn   : Block
  chain   : Block
  mem     : Memory
  deriving DecidableEq, Repr

/-- One host access on the bus (20_memory.md R60): `size` 0 = byte, 1 = halfword, 2 = word, 3 = reserved; `addr` is
the byte offset in the window. -/
structure Access where
  we    : Bool
  addr  : BitVec 14
  size  : BitVec 2
  wdata : Word
  deriving DecidableEq, Repr

/-- The answer to a host access (R60): the read data of a read (none for a write), and `bus_err` with its reason. -/
structure Response where
  rdata : Option Word
  fault : Option Fault
  deriving DecidableEq, Repr

/-- What happens next, in the order of the agenda: the two agents' steps of 40_control.md R110, a host access and the
completion in one clock cycle (60_exceptions.md R211), and the reset pin and power (R230 to R232). -/
inductive Event where
  /-- The host makes an access. -/
  | access (a : Access)
  /-- The engine completes the in-flight command, if there is one (R112). -/
  | engine
  /-- A host access and the completion of the in-flight command fall in one clock cycle (R211). -/
  | accessWithCompletion (a : Access)
  /-- A rising clock edge with `rst_n` = 0 (R230). -/
  | resetEdge
  /-- `rst_n` returns to 1: reset ends (R230). -/
  | releaseReset
  /-- Power-on: a reset, and a new draw of every RAM's contents (R230, R232). -/
  | powerOn
  deriving DecidableEq, Repr

/-- The FCE. Registers are held at the width R20 gives them, so their reserved bits read 0. -/
@[ext]
structure State where
  /-- KEY_DEPTH and MSG_BYTES (R7; log 1). -/
  params       : Params
  /-- The pin `rst_n`: false while reset is asserted (R60, R230). -/
  rstN         : Bool
  /-- CTRL.IE (R24). -/
  ie           : Bool
  /-- STATUS.BUSY (R26). -/
  busy         : Bool
  /-- STATUS.DONE (R27). -/
  done         : Bool
  /-- STATUS.VALID (R28). -/
  valid        : Bool
  /-- STATUS.WERR (R29). -/
  werr         : Bool
  /-- STATUS.ERR (R30). -/
  err          : ErrCode
  /-- CMD: the last accepted command word (R31), the in-flight one while BUSY (R47). -/
  cmd          : Word
  /-- NROUNDS (R32). -/
  nrounds      : BitVec 9
  /-- LEN (R33). -/
  len          : BitVec 14
  /-- OUT_LEN (R34). -/
  outLen       : BitVec 14
  /-- IV0, IV1 (R35). -/
  iv           : Block
  /-- BLK_IN0, BLK_IN1 (R36). -/
  blkIn        : Block
  /-- BLK_OUT0, BLK_OUT1 (R37). -/
  blkOut       : Block
  /-- CHAIN0, CHAIN1 (R38). -/
  chain        : Block
  /-- RF_OUT (R39). -/
  rfOut        : Word
  /-- S-box RAM, key RAM and message buffer (R41 to R43). -/
  mem          : Memory
  /-- The half registers L and R (R44), hidden. -/
  half         : Block
  /-- The round counter (R45), hidden. -/
  roundCounter : Nat
  /-- The block index b of the CBC controller (R46), hidden. -/
  blockIndex   : Nat
  /-- The feedback latch `prev` (R46), hidden. -/
  prevLatch    : Block
  /-- The ciphertext save latch (R46), hidden. -/
  saveLatch    : Block
  /-- The operand snapshot of the in-flight command (R47), hidden. -/
  snap         : Operands
  /-- The answer to the last completed host access (R60; log 10). -/
  resp         : Option Response
  /-- The model's own: what happens next (log 2). -/
  agenda       : List Event
  /-- The model's own: how many free values have been drawn (log 7). -/
  freeCount    : Nat
  deriving DecidableEq, Repr

/-- RAMs that nothing has written since power-on (R232). -/
def Memory.unwritten : Memory := ⟨[], 0, 0⟩

/-- The snapshot's content before any acceptance; no rule reads it (R230; DESIGN CHOICE, log 8). -/
def Operands.zero : Operands := ⟨0, 0, Block.zero, Block.zero, Block.zero, Memory.unwritten⟩

/-- The machine right after a power-on reset (R230, R233) in the reference configuration (R7; log 1): every register of
R20 at its reset column, no in-flight command, RAMs unwritten. The hidden registers, unspecified by R230, are 0
(DESIGN CHOICE, log 8); nothing is on the agenda (log 2). -/
def State.reset : State where
  params       := Params.reference
  rstN         := true
  ie           := false
  busy         := false
  done         := false
  valid        := false
  werr         := false
  err          := .none
  cmd          := 0
  nrounds      := 0
  len          := 0
  outLen       := 0
  iv           := Block.zero
  blkIn        := Block.zero
  blkOut       := Block.zero
  chain        := Block.zero
  rfOut        := 0
  mem          := Memory.unwritten
  half         := Block.zero
  roundCounter := 0
  blockIndex   := 0
  prevLatch    := Block.zero
  saveLatch    := Block.zero
  snap         := Operands.zero
  resp         := none
  agenda       := []
  freeCount    := 1

end Sys2Proof.Machine
end

