-- ==== Sys2Proof/Machine/Ops.lean ====
section
/-! DEFINITION. The shared operations: byte order, the three RAMs, blocks, and the two events of every command,
acceptance and completion (20_memory.md, 40_control.md R111, R112, 60_exceptions.md R200). -/

namespace Sys2Proof

/-- Byte `i` of a word: bits [8i+7:8i] (R11, R61). -/
def byteOf (w : Word) (i : Nat) : Byte := w.extractLsb' (8 * i) 8

/-- The word whose byte `i` is `b_i`: little-endian packing (R61). -/
def wordOfBytes (b0 b1 b2 b3 : Byte) : Word := b3 ++ b2 ++ b1 ++ b0

/-- The 64-bit block XOR of the controller's datapath (R11, R162). -/
def Block.xor (a b : Block) : Block := ⟨a.L ^^^ b.L, a.R ^^^ b.R⟩

/-- The halves exchanged (R148). -/
def Block.swap (b : Block) : Block := ⟨b.R, b.L⟩

/-- `byte(B, j)`: byte `j` of a block, `j` in 0..7 (R11). -/
def Block.byte (b : Block) (j : Nat) : Byte := if j < 4 then byteOf b.L j else byteOf b.R (j - 4)

namespace Machine

/-! ### The RAMs -/

/-- The offset of SBOX[t][e] (R41). -/
def sboxAddr (t e : Nat) : Nat := 0x400 * t + 4 * e

/-- The offset of KEY[i] (R42). -/
def keyAddr (i : Nat) : Nat := 0x1000 + 4 * i

/-- The offset of MSG[j] (R43). -/
def msgAddr (j : Nat) : Nat := 0x2000 + j

/-- The byte a cell list holds at an offset, if one was written there. Offsets rise along the list. -/
def lookupCell : List Host.Cell → Nat → Option Byte
  | [], _ => none
  | (k, v) :: rest, a => if k = a then some v else if a < k then none else lookupCell rest a

/-- A cell list with the byte at an offset replaced, or inserted in its place. -/
def putCell : List Host.Cell → Nat → Byte → List Host.Cell
  | [], a, v => [(a, v)]
  | (k, x) :: rest, a, v =>
    if a < k then (a, v) :: (k, x) :: rest
    else if a = k then (a, v) :: rest
    else (k, x) :: putCell rest a v

/-- What an unlisted RAM byte holds: its draw of RAM_INIT, stable until written (R232; log 5). -/
def Memory.unlisted (m : Memory) (a : Nat) : Byte :=
  Config.ramInit (if a < 0x2000 then m.ramEpoch else m.msgEpoch) a

/-- The byte of RAM at an offset. -/
def Memory.byte (m : Memory) (a : Nat) : Byte := (lookupCell m.cells a).getD (m.unlisted a)

/-- RAM with one byte written. -/
def Memory.setByte (m : Memory) (a : Nat) (v : Byte) : Memory := { m with cells := putCell m.cells a v }

/-- The word of RAM at an offset, little-endian (R61). -/
def Memory.word (m : Memory) (a : Nat) : Word :=
  wordOfBytes (m.byte a) (m.byte (a + 1)) (m.byte (a + 2)) (m.byte (a + 3))

/-- RAM with one word written, little-endian (R61). -/
def Memory.setWord (m : Memory) (a : Nat) (w : Word) : Memory :=
  (((m.setByte a (byteOf w 0)).setByte (a + 1) (byteOf w 1)).setByte (a + 2) (byteOf w 2)).setByte (a + 3) (byteOf w 3)

/-- SBOX[t][e] (R12, R41). -/
def Memory.sbox (m : Memory) (t e : Nat) : Word := m.word (sboxAddr t e)

/-- KEY[i] (R12, R42). -/
def Memory.key (m : Memory) (i : Nat) : Word := m.word (keyAddr i)

/-- MSG[j] (R12, R43). -/
def Memory.msg (m : Memory) (j : Nat) : Byte := m.byte (msgAddr j)

/-- BlkRead(b): bytes 8b..8b+7 of the message buffer as a block (R12). -/
def Memory.block (m : Memory) (b : Nat) : Block := ⟨m.word (msgAddr (8 * b)), m.word (msgAddr (8 * b + 4))⟩

/-- BlkWrite(b, B) (R12). -/
def Memory.setBlock (m : Memory) (b : Nat) (v : Block) : Memory :=
  (m.setWord (msgAddr (8 * b)) v.L).setWord (msgAddr (8 * b + 4)) v.R

/-- MSG[j], MSG[j+1], ..., `count` bytes of it, all written with `v` (R161). -/
def Memory.fillMsg (m : Memory) (j : Nat) (v : Byte) : Nat → Memory
  | 0 => m
  | count + 1 => (m.setByte (msgAddr j) v).fillMsg (j + 1) v count

/-- The offsets that hold RAM in a configuration: the S-box RAM, KEY[0..KEY_DEPTH-1], MSG[0..MSG_BYTES-1] (R20). -/
def implemented (p : Params) (a : Nat) : Bool :=
  decide (a < 0x1000) || (decide (0x1000 ≤ a) && decide (a < 0x1000 + 4 * p.keyDepth))
    || (decide (0x2000 ≤ a) && decide (a < 0x2000 + p.msgBytes))

/-- The canonical form of the RAMs: offsets strictly rising, every listed offset implemented. What an unlisted offset
holds is a draw no listed byte can be compared with, so a listed byte always stays listed (log 5). -/
abbrev Memory.wf (p : Params) (m : Memory) : Prop :=
  m.cells.Pairwise (fun x y => x.1 < y.1) ∧ ∀ c ∈ m.cells, implemented p c.1 = true

/-! ### Acceptance and completion -/

/-- The operands as they now stand (R111). -/
def State.operands (s : State) : Operands := ⟨s.nrounds, s.len, s.iv, s.blkIn, s.chain, s.mem⟩

/-- Acceptance of command word `w` (R111). VALID is cleared for OP = 0x6, legal word or not (R28, R94). -/
def State.accept (w : Word) (s : State) : State :=
  { s with
    cmd   := w
    snap  := s.operands
    busy  := true
    done  := false
    err   := .none
    valid := if opField w = 0x6 then false else s.valid }

/-- The state whose operands are those of the snapshot: what `execute(w, snap)` reads (R111, R112; log 4). -/
def State.atAcceptance (s : State) : State :=
  { s with
    nrounds := s.snap.nrounds
    len     := s.snap.len
    iv      := s.snap.iv
    blkIn   := s.snap.blkIn
    chain   := s.snap.chain
    mem     := s.snap.mem }

/-- The start of a command, before `execute`: the round counter and the block index are reset, to 0, where both begin
(R40, R45, R46; log 13). -/
def State.startCommand (s : State) : State := { s with roundCounter := 0, blockIndex := 0 }

/-- Completion with an error code: ERR <- code, BUSY <- 0, DONE <- 1 (R112). -/
def State.complete (c : ErrCode) (s : State) : State := { s with err := c, busy := false, done := true }

/-- A command that ends without error (R112). -/
def finish (s : State) : Host.Outcome State Fault Refusal := .next (s.complete .none)

/-- `raise E_<NAME>` (R12, R112, R200): the command completes with the code and performs none of its later steps. The
one exception mechanism of the FCE: nothing is vectored, saved or returned from (R200, R212). -/
def raise (c : ErrCode) (s : State) : Host.Outcome State Fault Refusal := .next (s.complete c)

/-! ### Results a command writes -/

/-- BLK_OUT <- b (R37). -/
def State.putBlkOut (b : Block) (s : State) : State := { s with blkOut := b }

/-- CHAIN <- b (R38). -/
def State.putChain (b : Block) (s : State) : State := { s with chain := b }

/-- RF_OUT <- w (R39). -/
def State.putRfOut (w : Word) (s : State) : State := { s with rfOut := w }

/-- OUT_LEN <- n (R34). -/
def State.putOutLen (n : Nat) (s : State) : State := { s with outLen := BitVec.ofNat 14 n }

/-- STATUS.VALID <- v (R28). -/
def State.putValid (v : Bool) (s : State) : State := { s with valid := v }

/-- The RAMs <- m. -/
def State.putMem (m : Memory) (s : State) : State := { s with mem := m }

/-- What the Feistel engine leaves in L, R and the round counter (R44, R45; log 13). -/
def State.putFeistel (b : Block) (i : Nat) (s : State) : State := { s with half := b, roundCounter := i }

/-- What the CBC controller leaves in the block index and the feedback latch (R46; log 13). -/
def State.putCbc (b : Nat) (prev : Block) (s : State) : State := { s with blockIndex := b, prevLatch := prev }

/-- The ciphertext save latch <- b (R46; log 13). -/
def State.putSave (b : Block) (s : State) : State := { s with saveLatch := b }

/-- The answer to a host access (R60). -/
def State.respond (r : Response) (s : State) : State := { s with resp := some r }

/-- The agenda left to do (log 2). -/
def State.putAgenda (es : List Event) (s : State) : State := { s with agenda := es }

end Machine

end Sys2Proof
end

