-- ==== Sys2Proof/Machine/Operands.lean ====
section
/-! DEFINITION. The operands of the commands (30_encoding.md R91): the round count and its check, the round-key
sequence, the feedback select, and the lengths of the buffer commands with their checks. -/

namespace Sys2Proof.Machine

/-- The check every cipher command makes first: N = r[NROUNDS] must be in 1..KEY_DEPTH, or E_BAD_NROUNDS
(R8, R201, R202). -/
def withRounds (s : State) (k : Nat → Host.Outcome State Fault Refusal) : Host.Outcome State Fault Refusal :=
  if s.nrounds.toNat = 0 ∨ s.params.keyDepth < s.nrounds.toNat then raise .badNrounds s else k s.nrounds.toNat

/-- The ordered round-key sequence KEY[0], ..., KEY[N-1] (R140). -/
def keySchedule (m : Memory) (rounds : Nat) : List Word := (List.range rounds).map m.key

/-- The feedback of a block command (R167). -/
def feedback (sel : Feedback) (s : State) : Block :=
  match sel with
  | .iv => s.iv
  | .chain => s.chain

/-- The padding length of an n-byte plaintext (R160). -/
def padLen (n : Nat) : Nat := 8 - n % 8

/-- The length check of CBC_ENC: n < MSG_BYTES, or E_BAD_LEN (R170). -/
def withPlainLen (s : State) (k : Nat → Host.Outcome State Fault Refusal) : Host.Outcome State Fault Refusal :=
  if s.params.msgBytes ≤ s.len.toNat then raise .badLen s else k s.len.toNat

/-- The length check of CBC_DEC_RAW and CBC_DEC: n ≠ 0, n mod 8 = 0, n ≤ MSG_BYTES, or E_BAD_LEN (R175). -/
def withCipherLen (s : State) (k : Nat → Host.Outcome State Fault Refusal) : Host.Outcome State Fault Refusal :=
  if s.len.toNat = 0 ∨ s.len.toNat % 8 ≠ 0 ∨ s.params.msgBytes < s.len.toNat then raise .badLen s else k s.len.toNat

end Sys2Proof.Machine
end

