-- ==== Sys2Proof/Machine/RoundFunction.lean ====
section
/-! DEFINITION. The round function and RF_EVAL (41_round_function.md R130, R131). -/

namespace Sys2Proof.Machine

/-- RF(k, d): byte i of k XOR d indexes table i; add, then XOR, then add, modulo 2^32 (R130). -/
def roundFunction (m : Memory) (k d : Word) : Word :=
  let t := k ^^^ d
  let a := m.sbox 0 (byteOf t 0).toNat + m.sbox 1 (byteOf t 1).toNat
  let b := a ^^^ m.sbox 2 (byteOf t 2).toNat
  b + m.sbox 3 (byteOf t 3).toNat

/-- RF_EVAL k: RF_OUT <- RF(KEY[k], BLK_IN1), or E_BAD_KIDX if k >= KEY_DEPTH; NROUNDS is not read (R131).
It runs no Feistel operation, so the counters stay as its start left them (R40, R45; log 13). -/
def execRfEval (kidx : Nat) (s : State) : Host.Outcome State Fault Refusal :=
  if s.params.keyDepth ≤ kidx then raise .badKidx s
  else finish (s.putRfOut (roundFunction s.mem (s.mem.key kidx) s.blkIn.R))

end Sys2Proof.Machine
end

