-- ==== Sys2Proof/Machine/Feistel.lean ====
section
/-! DEFINITION. The Feistel engine, ECB_ENC and ECB_DEC (42_feistel.md R142, R143, R145, R146). -/

namespace Sys2Proof.Machine

/-- One encode round with key `k`: (L, R) <- (R, L XOR RF(k, R)), simultaneously (R142, R147). -/
def encRound (rf : Word → Word → Word) (b : Block) (k : Word) : Block := ⟨b.R, b.L ^^^ rf k b.R⟩

/-- One decode round with key `k`: (L, R) <- (R XOR RF(k, L), L), simultaneously (R143, R147). -/
def decRound (rf : Word → Word → Word) (b : Block) (k : Word) : Block := ⟨b.R ^^^ rf k b.L, b.L⟩

/-- Enc under a key sequence, keys in ascending order; no final swap (R141, R142). -/
def feistelEnc (rf : Word → Word → Word) (keys : List Word) (b : Block) : Block := keys.foldl (encRound rf) b

/-- Dec under a key sequence, keys in descending order (R141, R143). -/
def feistelDec (rf : Word → Word → Word) (keys : List Word) (b : Block) : Block := keys.reverse.foldl (decRound rf) b

/-- Enc(B) under N rounds with the keys and tables of the RAMs (R142). -/
def encBlock (m : Memory) (rounds : Nat) (b : Block) : Block := feistelEnc (roundFunction m) (keySchedule m rounds) b

/-- Dec(B) under N rounds with the keys and tables of the RAMs (R143). -/
def decBlock (m : Memory) (rounds : Nat) (b : Block) : Block := feistelDec (roundFunction m) (keySchedule m rounds) b

/-- ECB_ENC: BLK_OUT <- Enc(BLK_IN) (R145). The round counter ran up to N-1 (R45); the block index stays as the start of
the command left it (R40; log 13). -/
def execEcbEnc (s : State) : Host.Outcome State Fault Refusal :=
  withRounds s fun n =>
    let o := encBlock s.mem n s.blkIn
    finish ((s.putFeistel o (n - 1)).putBlkOut o)

/-- ECB_DEC: BLK_OUT <- Dec(BLK_IN) (R146). The round counter ran down to 0 (R45); the block index stays as the start of
the command left it (R40; log 13). -/
def execEcbDec (s : State) : Host.Outcome State Fault Refusal :=
  withRounds s fun n =>
    let o := decBlock s.mem n s.blkIn
    finish ((s.putFeistel o 0).putBlkOut o)

end Sys2Proof.Machine
end

