-- ==== Sys2Proof/Machine/Cbc.lean ====
section
/-! DEFINITION. The CBC chaining controller: the block commands and the buffer commands (43_cbc.md). -/

namespace Sys2Proof.Machine

/-- CBC_ENC_BLK: C = Enc(BLK_IN XOR prev) into BLK_OUT and CHAIN (R165). -/
def execCbcEncBlk (sel : Feedback) (s : State) : Host.Outcome State Fault Refusal :=
  withRounds s fun n =>
    let prev := feedback sel s
    let c := encBlock s.mem n (s.blkIn.xor prev)
    finish ((((s.putFeistel c (n - 1)).putCbc 0 prev).putBlkOut c).putChain c)

/-- CBC_DEC_BLK: P = Dec(BLK_IN) XOR prev into BLK_OUT, the ciphertext BLK_IN into CHAIN; prev is read before CHAIN is
overwritten (R166). -/
def execCbcDecBlk (sel : Feedback) (s : State) : Host.Outcome State Fault Refusal :=
  withRounds s fun n =>
    let prev := feedback sel s
    let d := decBlock s.mem n s.blkIn
    finish (((((s.putFeistel d 0).putCbc 0 prev).putSave s.blkIn).putBlkOut (d.xor prev)).putChain s.blkIn)

/-- The encode loop over `count` blocks from block `b` on, in place: the RAMs and `prev` at its end (R163, R171). -/
def encryptBlocks (enc : Block → Block) : Nat → Nat → Memory → Block → Memory × Block
  | 0, _, m, prev => (m, prev)
  | count + 1, b, m, prev =>
    let c := enc ((m.block b).xor prev)
    encryptBlocks enc count (b + 1) (m.setBlock b c) c

/-- The decode loop over `count` blocks from block `b` on, in place: the ciphertext of block `b` is saved before the
block is overwritten and is the next feedback (R164, R175, R176). -/
def decryptBlocks (dec : Block → Block) : Nat → Nat → Memory → Block → Memory × Block
  | 0, _, m, prev => (m, prev)
  | count + 1, b, m, prev =>
    let c := m.block b
    decryptBlocks dec count (b + 1) (m.setBlock b ((dec c).xor prev)) c

/-- CBC_ENC from the padding on, for N rounds and n plaintext bytes (R171). -/
def encodeBuffer (rounds n : Nat) (s : State) : State :=
  let p := padLen n
  let blocks := (n + p) / 8
  let r := encryptBlocks (encBlock s.mem rounds) blocks 0 (s.mem.fillMsg n (BitVec.ofNat 8 p) p) s.iv
  ((((s.putMem r.1).putFeistel r.2 (rounds - 1)).putCbc (blocks - 1) r.2).putChain r.2).putOutLen (n + p)

/-- CBC_ENC: pad and encode the message in the buffer, in place (R171). -/
def execCbcEnc (s : State) : Host.Outcome State Fault Refusal :=
  withRounds s fun rounds => withPlainLen s fun n => finish (encodeBuffer rounds n s)

/-- The steps CBC_DEC_RAW and CBC_DEC share, up to and including the CHAIN write (R176, R178). -/
def decodeBuffer (rounds n : Nat) (s : State) : State :=
  let blocks := n / 8
  let r := decryptBlocks (decBlock s.mem rounds) blocks 0 s.mem s.iv
  ((((s.putMem r.1).putFeistel (decBlock s.mem rounds r.2) 0).putCbc (blocks - 1) r.2).putSave r.2).putChain r.2

/-- CBC_DEC_RAW: decode the buffer in place; the padding stays (R176). -/
def execCbcDecRaw (s : State) : Host.Outcome State Fault Refusal :=
  withRounds s fun rounds => withCipherLen s fun n => finish ((decodeBuffer rounds n s).putOutLen n)

/-- The padding removal of CBC_DEC: only the range of the last byte is checked (R177, R178). -/
def stripPadding (n : Nat) (s : State) : Host.Outcome State Fault Refusal :=
  let p := (s.mem.msg (n - 1)).toNat
  if p = 0 ∨ 8 < p then raise .badPad (s.putOutLen 0) else finish (s.putOutLen (n - p))

/-- CBC_DEC: decode the buffer in place and remove the padding (R178). -/
def execCbcDec (s : State) : Host.Outcome State Fault Refusal :=
  withRounds s fun rounds => withCipherLen s fun n => stripPadding n (decodeBuffer rounds n s)

end Sys2Proof.Machine
end

