-- ==== Sys2Proof/Machine/Control.lean ====
section
/-! DEFINITION. NOP (40_control.md R113). -/

namespace Sys2Proof.Machine

/-- NOP: `execute` writes nothing (R113). The counters were reset at its start (R40; log 13). -/
def execNop (s : State) : Host.Outcome State Fault Refusal := finish s

end Sys2Proof.Machine
end

