-- ==== Sys2Proof/Machine/Padding.lean ====
section
/-! DEFINITION. The padding validator and PAD_CHECK (44_padding_validator.md). -/

namespace Sys2Proof.Machine

/-- valid(P): the last byte q is in 1..8 and the last q bytes all equal q (R191). -/
def validPadding (p : Block) : Bool :=
  let q := (p.byte 7).toNat
  decide (1 ≤ q) && decide (q ≤ 8) && (List.range' (8 - q) q).all fun j => p.byte j == p.byte 7

/-- The comparison unit of R193: a range check, eight byte comparators and a mask. -/
def comparisonUnit (p : Block) : Bool :=
  let q := (p.byte 7).toNat
  let inRange := decide (q ≠ 0) && decide (q ≤ 8)
  let eq := fun j => p.byte j == p.byte 7
  let need := fun j => decide (8 - q ≤ j)
  inRange && (List.range 8).all fun j => !need j || eq j

/-- PAD_CHECK: VALID <- valid(Dec(BLK_IN) XOR IV); the decoded block stays in L and R only (R190, R192; log 13).
The block index stays as the start of the command left it (R40). -/
def execPadCheck (s : State) : Host.Outcome State Fault Refusal :=
  withRounds s fun n =>
    let p := (decBlock s.mem n s.blkIn).xor s.iv
    finish ((s.putFeistel p 0).putValid (validPadding p))

end Sys2Proof.Machine
end

