-- ==== Sys2Proof/Machine/Dispatch.lean ====
section
/-! DEFINITION. One arm per command: `execute` and the completion of the in-flight command (40_control.md R112). -/

namespace Sys2Proof.Machine

def exec (i : Instr) (s : State) : Host.Outcome State Fault Refusal :=
  match i with
  | .nop => Sys2Proof.Machine.execNop s
  | .ecbEnc => Sys2Proof.Machine.execEcbEnc s
  | .ecbDec => Sys2Proof.Machine.execEcbDec s
  | .rfEval kidx => Sys2Proof.Machine.execRfEval kidx s
  | .cbcEncBlk sel => Sys2Proof.Machine.execCbcEncBlk sel s
  | .cbcDecBlk sel => Sys2Proof.Machine.execCbcDecBlk sel s
  | .padCheck => Sys2Proof.Machine.execPadCheck s
  | .cbcEnc => Sys2Proof.Machine.execCbcEnc s
  | .cbcDecRaw => Sys2Proof.Machine.execCbcDecRaw s
  | .cbcDec => Sys2Proof.Machine.execCbcDec s

end Sys2Proof.Machine
end

