-- ==== Sys2Proof/Machine/Reset.lean ====
section
/-! DEFINITION. Reset and power-on (70_reset_and_hazards.md R230 to R233). -/

namespace Sys2Proof.Machine

/-- The message buffer after a reset that abandons a buffer command: every byte is unspecified, so the written bytes
are dropped and the buffer takes the draw numbered `epoch` (R231; log 6). Offsets rise along the cells, so the cells
kept, those below the buffer, come first. -/
def Memory.redrawMsg (epoch : Nat) (m : Memory) : Memory :=
  { m with cells := m.cells.takeWhile (fun c => decide (c.1 < 0x2000)), msgEpoch := epoch }

/-- The RAMs after a reset: kept, but for R231 (R232). -/
def ramsAfterReset (s : State) : Memory :=
  if s.busy && isBufferWord s.cmd then s.mem.redrawMsg s.freeCount else s.mem

/-- A rising clock edge with `rst_n` = 0: the registers of R20 take their reset column, an in-flight command is
abandoned (R230, R231). L, R, the counters and the latches are unspecified: free values (R230; log 8). -/
def resetEdge (s : State) : State :=
  { s with
    rstN         := false
    ie           := false
    busy         := false
    done         := false
    valid        := false
    werr         := false
    err          := .none
    cmd          := 0
    nrounds      := 0
    len          := 0
    outLen       := 0
    iv           := Block.zero
    blkIn        := Block.zero
    blkOut       := Block.zero
    chain        := Block.zero
    rfOut        := 0
    mem          := ramsAfterReset s
    half         := ⟨Config.freeWord s.freeCount, Config.freeWord (s.freeCount + 1)⟩
    roundCounter := Config.freeCount s.freeCount
    blockIndex   := Config.freeCount (s.freeCount + 1)
    prevLatch    := ⟨Config.freeWord (s.freeCount + 2), Config.freeWord (s.freeCount + 3)⟩
    saveLatch    := ⟨Config.freeWord (s.freeCount + 4), Config.freeWord (s.freeCount + 5)⟩
    freeCount    := s.freeCount + 6 }

/-- `rst_n` returns to 1 (R230). -/
def releaseReset (s : State) : State := { s with rstN := true }

/-- Power-on: a reset, and every RAM byte takes a new draw of RAM_INIT (R230, R232; log 17). -/
def powerOn (s : State) : State := { resetEdge s with mem := ⟨[], s.freeCount, s.freeCount⟩ }

end Sys2Proof.Machine
end

