-- ==== Sys2Proof/Machine/Flags.lean ====
section
/-! DEFINITION. STATUS as software sees it, its write-1-to-clear bits, and the interrupt output
(10_state.md R25 to R30, 60_exceptions.md R201, R210). The FCE has no arithmetic condition codes (R49); the flag
effects of acceptance and completion are `State.accept` and `State.complete`. -/

namespace Sys2Proof.Machine

/-- The error codes of R201. -/
def ErrCode.code : ErrCode → BitVec 4
  | .none => 0x0
  | .illegalCmd => 0x1
  | .badNrounds => 0x2
  | .badLen => 0x3
  | .badPad => 0x4
  | .badKidx => 0x5

/-- STATUS as read: BUSY, DONE, VALID, WERR in bits 0..3, ERR in bits [11:8], all others 0 (R25). -/
def State.status (s : State) : Word :=
  0#20 ++ s.err.code ++ 0#4 ++ BitVec.ofBool s.werr ++ BitVec.ofBool s.valid ++ BitVec.ofBool s.done
    ++ BitVec.ofBool s.busy

/-- A write of STATUS clears DONE and WERR where the written bit is 1, and changes nothing else (R27, R29, R64). -/
def State.writeStatus (v : Word) (s : State) : State :=
  { s with
    done := if v.getLsbD 1 then false else s.done
    werr := if v.getLsbD 3 then false else s.werr }

/-- A write of CTRL stores bit 0 (R24). -/
def State.writeCtrl (v : Word) (s : State) : State := { s with ie := v.getLsbD 0 }

/-- CTRL as read (R24). -/
def State.ctrl (s : State) : Word := BitVec.setWidth 32 (BitVec.ofBool s.ie)

/-- The interrupt output: CTRL.IE and STATUS.DONE, and 0 while `rst_n` = 0 (R210, R230). -/
def State.irq (s : State) : Bool := s.rstN && s.ie && s.done

end Sys2Proof.Machine
end

