-- ==== Sys2Proof/Machine/Window.lean ====
section
/-! DEFINITION. The register window and the host's accesses to it (10_state.md R20 to R39, 20_memory.md R60 to R68,
30_encoding.md R95). -/

namespace Sys2Proof.Machine

/-- The registers of the window by name (R20). -/
inductive Reg where
  | id | cfg | ctrl | status | cmd | nrounds | len | outLen | iv0 | iv1
  | blkIn0 | blkIn1 | blkOut0 | blkOut1 | chain0 | chain1 | rfOut
  deriving DecidableEq, Repr

/-- What an aligned word offset of the window names (R20, R63). -/
inductive Loc where
  /-- SBOX[t][e]. -/
  | sbox (t e : Nat)
  /-- KEY[i], i < KEY_DEPTH. -/
  | key (i : Nat)
  /-- A register. -/
  | reg (r : Reg)
  /-- The MSG word MSGW[w], bytes 4w..4w+3, inside MSG_BYTES. -/
  | msgWord (w : Nat)
  /-- A reserved offset: RAZ/WI. -/
  | reserved
  deriving DecidableEq, Repr

/-- The register offsets of R20. -/
def regMap : List (Nat × Reg) :=
  [(0x1400, .id), (0x1404, .cfg), (0x1408, .ctrl), (0x140C, .status), (0x1410, .cmd), (0x1414, .nrounds),
   (0x1418, .len), (0x141C, .outLen), (0x1420, .iv0), (0x1424, .iv1), (0x1428, .blkIn0), (0x142C, .blkIn1),
   (0x1430, .blkOut0), (0x1434, .blkOut1), (0x1438, .chain0), (0x143C, .chain1), (0x1440, .rfOut)]

/-- The register at an offset, if one is there. -/
def regAt (a : Nat) : Option Reg := regMap.lookup a

/-- The address map (R20, R63, R68). -/
def locate (p : Params) (a : Nat) : Loc :=
  if a < 0x1000 then .sbox (a / 0x400) (a % 0x400 / 4)
  else if a < 0x1400 then if (a - 0x1000) / 4 < p.keyDepth then .key ((a - 0x1000) / 4) else .reserved
  else if a < 0x2000 then
    match regAt a with
    | some r => .reg r
    | none => .reserved
  else if a - 0x2000 < p.msgBytes then .msgWord ((a - 0x2000) / 4) else .reserved

/-- ID (R22). -/
def idWord : Word := 0x46434531

/-- CFG: MSG_BYTES in bits [29:16], KEY_DEPTH in bits [8:0] (R23). -/
def cfgWord (p : Params) : Word := 0#2 ++ BitVec.ofNat 14 p.msgBytes ++ 0#7 ++ BitVec.ofNat 9 p.keyDepth

/-- What a register reads, BUSY or not (R20 to R39). -/
def readReg (r : Reg) (s : State) : Word :=
  match r with
  | .id => idWord
  | .cfg => cfgWord s.params
  | .ctrl => s.ctrl
  | .status => s.status
  | .cmd => s.cmd
  | .nrounds => BitVec.setWidth 32 s.nrounds
  | .len => BitVec.setWidth 32 s.len
  | .outLen => BitVec.setWidth 32 s.outLen
  | .iv0 => s.iv.L
  | .iv1 => s.iv.R
  | .blkIn0 => s.blkIn.L
  | .blkIn1 => s.blkIn.R
  | .blkOut0 => s.blkOut.L
  | .blkOut1 => s.blkOut.R
  | .chain0 => s.chain.L
  | .chain1 => s.chain.R
  | .rfOut => s.rfOut

/-- The value a location holds (R21, R63). -/
def readLoc (l : Loc) (s : State) : Word :=
  match l with
  | .sbox t e => s.mem.sbox t e
  | .key i => s.mem.key i
  | .reg r => readReg r s
  | .msgWord w => s.mem.word (msgAddr (4 * w))
  | .reserved => 0

/-- The locations whose reads return an unspecified value while BUSY (R67). -/
def isResultLoc (l : Loc) : Bool :=
  match l with
  | .sbox _ _ => false
  | .key _ => false
  | .reg r =>
    match r with
    | .id => false
    | .cfg => false
    | .ctrl => false
    | .status => false
    | .cmd => false
    | .nrounds => false
    | .len => false
    | .outLen => true
    | .iv0 => false
    | .iv1 => false
    | .blkIn0 => false
    | .blkIn1 => false
    | .blkOut0 => true
    | .blkOut1 => true
    | .chain0 => true
    | .chain1 => true
    | .rfOut => true
  | .msgWord _ => true
  | .reserved => false

/-- A read: the location's value, but a fresh free value for a result location while BUSY (R67; log 7). No other effect
(R64). -/
def hostRead (l : Loc) (s : State) : State :=
  if s.busy && isResultLoc l then
    { s with resp := some ⟨some (Config.freeWord s.freeCount), none⟩, freeCount := s.freeCount + 1 }
  else s.respond ⟨some (readLoc l s), none⟩

/-- A write of a register while BUSY = 0 (R21 to R39). A write of CMD is an acceptance (R111). -/
def writeReg (r : Reg) (v : Word) (s : State) : State :=
  match r with
  | .id => s
  | .cfg => s
  | .ctrl => s.writeCtrl v
  | .status => s.writeStatus v
  | .cmd => s.accept v
  | .nrounds => { s with nrounds := v.extractLsb' 0 9 }
  | .len => { s with len := v.extractLsb' 0 14 }
  | .outLen => s
  | .iv0 => { s with iv := ⟨v, s.iv.R⟩ }
  | .iv1 => { s with iv := ⟨s.iv.L, v⟩ }
  | .blkIn0 => { s with blkIn := ⟨v, s.blkIn.R⟩ }
  | .blkIn1 => { s with blkIn := ⟨s.blkIn.L, v⟩ }
  | .blkOut0 => s
  | .blkOut1 => s
  | .chain0 => s
  | .chain1 => s
  | .rfOut => s

/-- A write while BUSY = 0 (R21, R63). -/
def writeIdle (l : Loc) (v : Word) (s : State) : State :=
  match l with
  | .sbox t e => s.putMem (s.mem.setWord (sboxAddr t e) v)
  | .key i => s.putMem (s.mem.setWord (keyAddr i) v)
  | .reg r => writeReg r v s
  | .msgWord w => s.putMem (s.mem.setWord (msgAddr (4 * w)) v)
  | .reserved => s

/-- A write while BUSY = 1: CTRL and STATUS take effect, any other write is dropped and sets WERR (R66). -/
def writeBusy (l : Loc) (v : Word) (s : State) : State :=
  if l = .reg .ctrl then s.writeCtrl v
  else if l = .reg .status then s.writeStatus v
  else { s with werr := true }

/-- A write (R21, R66). -/
def hostWrite (l : Loc) (v : Word) (s : State) : State :=
  if s.busy then writeBusy l v s else writeIdle l v s

/-- The defined accesses: a word at an offset that is a multiple of 4 (R62). -/
def Access.supported (a : Access) : Bool := decide (a.size = 2) && decide (a.addr.toNat % 4 = 0)

/-- The read data of an access that reaches no location: 0 on a read (R62, R230). -/
def Access.zeroData (a : Access) : Option Word := if a.we then none else some 0

/-- One host access. While `rst_n` = 0 it is ignored: a read returns 0, a write has no effect, there is no `bus_err`
(R230). An unsupported access answers `bus_err`, changes nothing, and a read returns 0 (R62). -/
def hostAccess (a : Access) (s : State) : State :=
  if s.rstN = false then s.respond ⟨a.zeroData, none⟩
  else if a.supported = false then s.respond ⟨a.zeroData, some .busErr⟩
  else if a.we then (hostWrite (locate s.params a.addr.toNat) a.wdata s).respond ⟨none, none⟩
  else hostRead (locate s.params a.addr.toNat) s

/-- `WR off, v`: an aligned word write (R95). -/
def Access.wr (off : BitVec 14) (v : Word) : Access := ⟨true, off, 2, v⟩

/-- `RD off`: an aligned word read (R95). -/
def Access.rd (off : BitVec 14) : Access := ⟨false, off, 2, 0⟩

/-- The effective address of an access, FCE_BASE + off (R95; log 15). -/
def Access.busAddress (a : Access) : Nat := Config.fceBase + a.addr.toNat

end Sys2Proof.Machine
end

