-- ==== Sys2Proof/Machine/Engine.lean ====
section
/-! DEFINITION. The engine's step and what each event of the agenda does (40_control.md R110, R112, 60_exceptions.md
R211). -/

namespace Sys2Proof.Machine

/-- The in-flight command word (R112: `w <- r[CMD]`). -/
def State.fetch (s : State) : Word := s.cmd

/-- The engine step is enabled only while STATUS.BUSY = 1, and not in reset (R110, R230). -/
def State.engineEnabled (s : State) : Bool := s.rstN && s.busy

/-- Completion of the in-flight command: an illegal word raises E_ILLEGAL_CMD and changes nothing else (R94); a legal one
starts (R40) and executes on the operands of its snapshot (R112). -/
def engineStep (s : State) : Host.Outcome State Fault Refusal :=
  match decode s.fetch with
  | .ok i => exec i s.atAcceptance.startCommand
  | .error _ => raise .illegalCmd s

/-- The engine's turn: its step if it is enabled, else nothing (R110). -/
def engineTurn (s : State) : Host.Outcome State Fault Refusal :=
  if s.engineEnabled then engineStep s else .next s

/-- One event of the agenda. In R211 the access takes effect first and the completion second, and only a command that
was already in flight completes (LATENCY is at least 1, R114). -/
def handle (e : Event) (s : State) : Host.Outcome State Fault Refusal :=
  match e with
  | .access a => .next (hostAccess a s)
  | .engine => engineTurn s
  | .accessWithCompletion a =>
    if s.engineEnabled then engineTurn (hostAccess a s) else .next (hostAccess a s)
  | .resetEdge => .next (resetEdge s)
  | .releaseReset => .next (releaseReset s)
  | .powerOn => .next (powerOn s)

/-- The next event with the rest of the agenda left; with nothing on the agenda the engine has its turn, so that an
accepted command completes (R114; log 2). -/
def advance (s : State) : Host.Outcome State Fault Refusal :=
  match s.agenda with
  | [] => engineTurn s
  | e :: rest => handle e (s.putAgenda rest)

/-- The command word that `nbits` bits of `w` are; the bits above are zero (R90). -/
def commandWordOf (nbits w : Nat) : Word := BitVec.ofNat 32 (w % 2 ^ nbits)

/-- The machine with command word `w` accepted and the engine's step next (R111; log 3). -/
def State.withCommand (s : State) (w : Word) : State :=
  { s.accept w with rstN := true, agenda := .engine :: s.agenda }

end Sys2Proof.Machine
end

