-- ==== Sys2Proof/Machine/Step.lean ====
section
/-! DEFINITION. One step of the machine, and how a command word comes to be the next one run. -/

namespace Sys2Proof.Machine

/-- One step: one event (40_control.md R110). -/
def step (s : State) : Host.Outcome State Fault Refusal := advance s

/-- `s` with that command word in flight and the engine's completion next, so that the very next step runs it. The FCE
fetches nothing (R40): a command runs by being written to CMD, which is what this stands for (log 3). -/
def State.withFetchWord (s : State) (nbits w : Nat) : State := s.withCommand (commandWordOf nbits w)

end Sys2Proof.Machine
end

