-- ==== Sys2Proof/Safety.lean ====
section
/-! DEFINITION. What counts as a state a run can reach, and the words the claims are stated in. -/

namespace Sys2Proof.Machine

/-- Every host register at its reset column (10_state.md R20, 70_reset_and_hazards.md R230). -/
abbrev State.registersAtReset (s : State) : Prop :=
  s.ie = false ∧ s.busy = false ∧ s.done = false ∧ s.valid = false ∧ s.werr = false ∧ s.err = .none
    ∧ s.cmd = 0 ∧ s.nrounds = 0 ∧ s.len = 0 ∧ s.outLen = 0 ∧ s.iv = Block.zero ∧ s.blkIn = Block.zero
    ∧ s.blkOut = Block.zero ∧ s.chain = Block.zero ∧ s.rfOut = 0

/-- While a command is in flight DONE and ERR are 0, an OP 0x6 word has VALID 0, and the snapshot is still the live
operands (40_control.md R111, 20_memory.md R66, R72). -/
abbrev State.inFlightCoherent (s : State) : Prop :=
  s.busy = true → s.done = false ∧ s.err = .none ∧ (opField s.cmd = 0x6 → s.valid = false) ∧ s.snap = s.operands

/-- The invariant of the model: a legal configuration (R7), RAMs in canonical form, coherent in-flight command, registers
at their reset values while `rst_n` = 0 (R230), OUT_LEN within the buffer, and draws numbered below the counter. -/
abbrev State.Inv (s : State) : Prop :=
  s.params.legal ∧ s.mem.wf s.params ∧ s.inFlightCoherent ∧ (s.rstN = false → s.registersAtReset)
    ∧ s.outLen.toNat ≤ s.params.msgBytes ∧ s.mem.ramEpoch < s.freeCount ∧ s.mem.msgEpoch < s.freeCount

/-- The round count a cipher command needs: N in 1..KEY_DEPTH (00_scope.md R8). -/
abbrev State.roundsLegal (s : State) : Prop := 1 ≤ s.nrounds.toNat ∧ s.nrounds.toNat ≤ s.params.keyDepth

/-- The events that are the reset pin or power (R230). -/
def Event.isReset : Event → Bool
  | .access _ => false
  | .engine => false
  | .accessWithCompletion _ => false
  | .resetEdge => true
  | .releaseReset => false
  | .powerOn => true

/-- The access an event makes, if it makes one. -/
def Event.access? : Event → Option Access
  | .access a => some a
  | .engine => none
  | .accessWithCompletion a => some a
  | .resetEdge => none
  | .releaseReset => none
  | .powerOn => none

/-- The bits of an aligned offset that a host write stores, the "width used" of the RW rows of R20; no bit of a read-only
register, of STATUS (write-1-to-clear), of CMD (a write is an acceptance) or of a reserved offset. -/
def writableBits (p : Params) (a : Nat) : Word :=
  if implemented p a then 0xFFFFFFFF
  else if a = 0x1408 then 0x1
  else if a = 0x1414 then 0x1FF
  else if a = 0x1418 then 0x3FFF
  else if a = 0x1420 ∨ a = 0x1424 ∨ a = 0x1428 ∨ a = 0x142C then 0xFFFFFFFF
  else 0

/-- The reserved offsets (20_memory.md R63). -/
abbrev reservedOffset (p : Params) (a : Nat) : Prop :=
  (0x1444 ≤ a ∧ a < 0x2000) ∨ 0x2000 + p.msgBytes ≤ a ∨ (0x1000 + 4 * p.keyDepth ≤ a ∧ a < 0x1400)

/-- The offsets whose reads are unspecified while BUSY (20_memory.md R67): OUT_LEN, BLK_OUT0 to RF_OUT, MSG. -/
abbrev resultOffset (p : Params) (a : Nat) : Prop :=
  a = 0x141C ∨ (0x1430 ≤ a ∧ a ≤ 0x1440) ∨ (0x2000 ≤ a ∧ a < 0x2000 + p.msgBytes)

/-- A run on which every host write landed and no access failed: WERR is 0 and the last answer is no `bus_err`
(70_reset_and_hazards.md R236, 20_memory.md R62). -/
def State.clean (s : State) : Bool :=
  !s.werr && match s.resp with
    | none => true
    | some r => decide (r.fault = none)

/-- Block commands one after the other, as a host uses them for a message (43_cbc.md R168): BLK_IN takes each block in
turn, the first command uses feedback `sel`, the others CHAIN; the answer is the BLK_OUT of each, in order. -/
def runBlockCommands (command : Feedback → Instr) : Feedback → List Block → State → Option (List Block × State)
  | _, [], s => some ([], s)
  | sel, b :: rest, s =>
    match exec (command sel) { s with blkIn := b } with
    | .next t => (runBlockCommands command .chain rest t).map fun r => (t.blkOut :: r.1, r.2)
    | .fault _ => none
    | .refused _ => none

/-- CBC encode chaining as R163 gives it: each block XORed with the previous ciphertext block, then encoded. -/
def cbcCiphertext (enc : Block → Block) : Block → List Block → List Block
  | _, [] => []
  | prev, p :: rest => enc (p.xor prev) :: cbcCiphertext enc (enc (p.xor prev)) rest

/-- CBC decode chaining as R164 gives it: each block decoded, then XORed with the previous ciphertext block. -/
def cbcPlaintext (dec : Block → Block) : Block → List Block → List Block
  | _, [] => []
  | prev, c :: rest => (dec c).xor prev :: cbcPlaintext dec c rest

end Sys2Proof.Machine
end

