-- ==== Sys2Proof/Certificates/Slice0/Obligations.lean ====
section
/-! DEFINITION. The statements for the provers, from the numbered rules of spec/. A statement that rests on the model's
own choice names the log entry. -/

open Sys2Proof Sys2Proof.Machine

/-! ### Command words -/

/-- 30_encoding.md R90 to R92: the encoder and the decoder agree on every command, with every KIDX and S. -/
def Obligations.DecodeOfEncodeGivesTheCommand : Prop :=
  ∀ i : Instr, i.wellFormed = true → decode (encode i) = .ok i

/-- 30_encoding.md R90 to R93: a legal word has one meaning, and no bit of it is dropped. -/
def Obligations.EncodeOfDecodeGivesTheWord : Prop :=
  ∀ (w : Word) (i : Instr), decode w = .ok i → i.wellFormed = true ∧ encode i = w

/-- 30_encoding.md R93: a word is legal iff its fields are, equivalently iff it matches exactly one row of R92. -/
def Obligations.WordIsLegalIffItsFieldsAre : Prop :=
  ∀ w : Word,
    ((∃ i, decode w = .ok i) ↔
      (w.extractLsb' 0 4).toNat ≤ 0x9 ∧ w.extractLsb' 16 16 = 0 ∧ w.extractLsb' 5 3 = 0
        ∧ (w.getLsbD 4 = false ∨ w.extractLsb' 0 4 = 0x4 ∨ w.extractLsb' 0 4 = 0x5)
        ∧ (w.extractLsb' 8 8 = 0 ∨ w.extractLsb' 0 4 = 0x3))
    ∧ ((∃ i, decode w = .ok i) ↔
      ∃ r ∈ opcodeRows, w &&& r.mask = r.pattern ∧ ∀ r' ∈ opcodeRows, w &&& r'.mask = r'.pattern → r' = r)

/-- 30_encoding.md R92: a word encodes a mnemonic iff `w AND mask = match` for the mnemonic's row. -/
def Obligations.DecodedCommandIsTheRowThatMatches : Prop :=
  ∀ w : Word, ∀ r ∈ opcodeRows,
    (w &&& r.mask = r.pattern ↔ ∃ i, decode w = .ok i ∧ i.mnemonic = r.mnemonic)

/-- 30_encoding.md R92, R97 and 95_test_vectors.md C2 to C11: words of each family decode to their commands. -/
def Obligations.WorkedEncodingsDecode : Prop :=
  decode 0x00000000 = .ok .nop ∧ decode 0x00000001 = .ok .ecbEnc ∧ decode 0x00000503 = .ok (.rfEval 5)
    ∧ decode 0x00000014 = .ok (.cbcEncBlk .iv) ∧ decode 0x00000005 = .ok (.cbcDecBlk .chain)
    ∧ decode 0x00000006 = .ok .padCheck ∧ decode 0x00000009 = .ok .cbcDec
    ∧ decode 0x0000000A = .error .reservedOp ∧ decode 0x00000113 = .error .straySelect

/-- 30_encoding.md R94: an illegal word is accepted and completes with E_ILLEGAL_CMD; it changes BUSY (1, then 0), DONE,
ERR, the CMD readback and, for OP 0x6, VALID; the snapshot, the bus answer and the agenda are the shell's own. -/
def Obligations.IllegalWordIsAcceptedAndCompletesWithError : Prop :=
  ∀ (s : State) (w : Word) (rest : List Event), s.rstN = true → s.busy = false → (∀ i, decode w ≠ .ok i) →
    s.agenda = .access (Access.wr 0x1410 w) :: .engine :: rest →
    Sys2Proof.core.run 2 s = .next { s with
      cmd := w, done := true, err := .illegalCmd
      valid := if w.extractLsb' 0 4 = 0x6 then false else s.valid
      snap := s.operands, resp := some ⟨none, none⟩, agenda := rest }

/-! ### Steps -/

/-- 40_control.md R112, 10_state.md R40: the engine's step is the decoded in-flight command, started and executed on its
snapshot, whether the agenda names the engine next or names nothing (the model's choices: log 2, log 4, log 13). -/
def Obligations.StepRunsTheDecodedCommand : Prop :=
  ∀ (s : State) (i : Instr) (rest : List Event), s.rstN = true → s.busy = true → decode s.cmd = .ok i →
    (s.agenda = [] → step s = exec i s.atAcceptance.startCommand)
    ∧ (s.agenda = .engine :: rest → step s = exec i ({ s with agenda := rest } : State).atAcceptance.startCommand)

/-- 40_control.md R111: under the invariant the snapshot of the in-flight command is the live state, so that execution on
the snapshot is execution on the state as it stands. -/
def Obligations.InFlightOperandsAreTheLiveOnes : Prop :=
  ∀ s : State, s.Inv → s.busy = true → s.atAcceptance = s

/-- The word that withFetchWord places is the command the very next step runs (the model's choice: log 3). -/
def Obligations.PlacedWordRunsNext : Prop :=
  ∀ (s : State) (nbits w : Nat) (i : Instr), decodeTableWord nbits w = some i →
    step (s.withFetchWord nbits w)
      = exec i ({ s.accept (BitVec.ofNat 32 (w % 2 ^ nbits)) with rstN := true } : State).startCommand

/-- 10_state.md R40: the round counter and the block index are reset at the start of every command: what a command does not
run leaves the counter at 0, whatever stood there. That they reset to 0, and when, is the model's choice (log 13). -/
def Obligations.CountersRestartWithEveryCommand : Prop :=
  ∀ (s : State) (i : Instr) (rest : List Event), s.rstN = true → s.busy = true → decode s.cmd = .ok i →
    s.agenda = .engine :: rest →
    ∃ t, step s = .next t
      ∧ (i.isBufferCommand = false ∨ ¬ s.atAcceptance.roundsLegal → t.blockIndex = 0)
      ∧ (i = .nop ∨ (∃ k, i = .rfEval k) ∨ ¬ s.atAcceptance.roundsLegal → t.roundCounter = 0)

/-- 60_exceptions.md R211: a host access and the completion in one clock cycle are the access first, the completion
second. -/
def Obligations.SimultaneousAccessComesFirst : Prop :=
  ∀ (s : State) (a : Access) (rest : List Event), s.rstN = true → s.busy = true →
    s.agenda = .accessWithCompletion a :: rest →
    Sys2Proof.core.run 1 s = Sys2Proof.core.run 2 { s with agenda := .access a :: .engine :: rest }

/-- 40_control.md R114, 70_reset_and_hazards.md R242: an accepted command completes, if no reset intervenes; the
agenda stands for LATENCY (log 2). -/
def Obligations.AcceptedCommandCompletes : Prop :=
  ∀ s : State, s.rstN = true → s.busy = true → (∀ e ∈ s.agenda, e.isReset = false) →
    ∃ k t, k ≤ s.agenda.length + 1 ∧ Sys2Proof.core.run k s = .next t ∧ t.busy = false ∧ t.done = true

/-- 20_memory.md R72, 40_control.md R111, R112: whatever accesses the host makes while the command is in flight, its
results are those of executing it on the state at acceptance. -/
def Obligations.HostTrafficCannotChangeACommandsResult : Prop :=
  ∀ (s : State) (w : Word) (i : Instr) (as : List Access) (rest : List Event),
    s.rstN = true → s.busy = false → decode w = .ok i →
    s.agenda = .access (Access.wr 0x1410 w) :: (as.map Event.access ++ .engine :: rest) →
    ∃ t u, Sys2Proof.core.run (as.length + 2) s = .next t ∧ exec i (s.accept w) = .next u
      ∧ t.mem = u.mem ∧ t.blkOut = u.blkOut ∧ t.chain = u.chain ∧ t.rfOut = u.rfOut ∧ t.outLen = u.outLen
      ∧ t.err = u.err ∧ t.valid = u.valid ∧ t.busy = false ∧ t.done = true ∧ t.cmd = w

/-! ### Reset and the invariant -/

/-- 10_state.md R20, 70_reset_and_hazards.md R230, R233: the registers after reset in the reference configuration
(log 1). -/
def Obligations.ResetStateRegisters : Prop :=
  readReg .id State.reset = 0x46434531 ∧ readReg .cfg State.reset = 0x04000100
    ∧ (∀ r : Reg, r ≠ .id → r ≠ .cfg → readReg r State.reset = 0)
    ∧ State.reset.irq = false ∧ State.reset.mem.cells = []

/-- 70_reset_and_hazards.md R230: what reset does to every register, what the FCE does while `rst_n` = 0, and that the
release of reset changes nothing else. The hidden registers stay unspecified: nothing is said of them. The model's choices:
reset as a reset edge and a release, with the registers at their reset values from the edge on and no `bus_err` for an
unsupported access between the two (log 11), and power-on as a reset edge (log 17). -/
def Obligations.ResetClearsRegistersAndIgnoresAccesses : Prop :=
  ∀ (s : State) (e : Event) (rest : List Event), e = .resetEdge ∨ e = .powerOn → s.agenda = e :: rest →
    ∃ t, step s = .next t
      ∧ (∀ r : Reg, readReg r t = if r = .id then 0x46434531 else if r = .cfg then readReg .cfg s else 0)
      ∧ t.rstN = false ∧ t.irq = false ∧ t.params = s.params ∧ t.agenda = rest
      ∧ (∀ (a : Access) (more : List Event), step { t with agenda := .access a :: more }
          = .next { t with agenda := more, resp := some ⟨if a.we then none else some 0, none⟩ })
      ∧ (∀ more : List Event, step { t with agenda := .engine :: more } = .next { t with agenda := more })
      ∧ (∀ more : List Event, step { t with agenda := .releaseReset :: more }
          = .next { t with agenda := more, rstN := true })

/-- 70_reset_and_hazards.md R231, R232: a reset keeps the S-box and key RAMs, and the message buffer too unless it
abandons a buffer command; then every byte of the buffer is a new draw. No result register keeps a value. The model's
choices: the number of the draw (log 6), and that an illegal word is no buffer command, whatever its OP (log 14). -/
def Obligations.ResetKeepsRamsButAnAbandonedBuffer : Prop :=
  ∀ (s : State) (rest : List Event), s.agenda = .resetEdge :: rest →
    ∃ t, step s = .next t ∧ t.busy = false ∧ t.done = false
      ∧ t.blkOut = ⟨0, 0⟩ ∧ t.chain = ⟨0, 0⟩ ∧ t.rfOut = 0 ∧ t.outLen = 0
      ∧ (∀ x, x < 0x2000 → t.mem.byte x = s.mem.byte x)
      ∧ ((s.busy = true ∧ (decode s.cmd = .ok .cbcEnc ∨ decode s.cmd = .ok .cbcDecRaw ∨ decode s.cmd = .ok .cbcDec)) →
          ∀ x, 0x2000 ≤ x → t.mem.byte x = Config.ramInit s.freeCount x)
      ∧ (¬ (s.busy = true ∧ (decode s.cmd = .ok .cbcEnc ∨ decode s.cmd = .ok .cbcDecRaw ∨ decode s.cmd = .ok .cbcDec)) →
          ∀ x, t.mem.byte x = s.mem.byte x)

/-- 70_reset_and_hazards.md R232: at power-on every RAM byte is a draw of RAM_INIT, under a number of its own (log 17). -/
def Obligations.PowerOnDrawsEveryRamByte : Prop :=
  ∀ (s : State) (rest : List Event), s.agenda = .powerOn :: rest →
    ∃ t, step s = .next t ∧ ∀ x, t.mem.byte x = Config.ramInit s.freeCount x

/-- The reset state meets the invariant. -/
def Obligations.InvariantHoldsAtReset : Prop := State.reset.Inv

/-- Every step keeps the invariant: a legal configuration, the RAMs in canonical form and inside the implemented offsets,
a coherent in-flight command, registers at reset values while `rst_n` = 0, OUT_LEN within the buffer. -/
def Obligations.EveryStepKeepsTheInvariant : Prop :=
  ∀ s t : State, s.Inv → step s = .next t → t.Inv

/-! ### Host accesses -/

/-- 20_memory.md R62: an access that is not an aligned word access answers `bus_err`, changes no FCE state and returns 0 on
a read; an aligned word access never answers `bus_err`. -/
def Obligations.UnsupportedAccessAnswersBusErr : Prop :=
  ∀ (s : State) (a : Access) (rest : List Event), s.rstN = true → s.agenda = .access a :: rest →
    (¬ (a.size = 2 ∧ a.addr.toNat % 4 = 0) →
      step s = .next { s with agenda := rest, resp := some ⟨if a.we then none else some 0, some .busErr⟩ })
    ∧ (a.size = 2 ∧ a.addr.toNat % 4 = 0 → ∃ t d, step s = .next t ∧ t.resp = some ⟨d, none⟩)

/-- 20_memory.md R66: writes while BUSY = 1. -/
def Obligations.WritesWhileBusyAreDropped : Prop :=
  ∀ (s : State) (off : BitVec 14) (v : Word) (rest : List Event), s.rstN = true → s.busy = true → off.toNat % 4 = 0 →
    s.agenda = .access (Access.wr off v) :: rest →
    step s = .next (
      if off = 0x1408 then { s with ie := v.getLsbD 0, resp := some ⟨none, none⟩, agenda := rest }
      else if off = 0x140C then
        { s with done := s.done && !v.getLsbD 1, werr := s.werr && !v.getLsbD 3, resp := some ⟨none, none⟩, agenda := rest }
      else { s with werr := true, resp := some ⟨none, none⟩, agenda := rest })

/-- 40_control.md R111: acceptance, and that a CMD write while BUSY = 1 is none; the snapshot holds the registers that
a command reads (log 4). -/
def Obligations.WriteOfCmdIsAcceptance : Prop :=
  ∀ (s : State) (w : Word) (rest : List Event), s.rstN = true → s.agenda = .access (Access.wr 0x1410 w) :: rest →
    (s.busy = false → step s = .next { s with
      cmd := w, snap := s.operands, busy := true, done := false, err := .none
      valid := if w.extractLsb' 0 4 = 0x6 then false else s.valid
      resp := some ⟨none, none⟩, agenda := rest })
    ∧ (s.busy = true → step s = .next { s with werr := true, resp := some ⟨none, none⟩, agenda := rest })

/-- 10_state.md R27, R29, R25: a write of STATUS clears DONE and WERR where the written bit is 1 and nothing else, BUSY or
not. -/
def Obligations.WriteOfStatusClearsDoneAndWerrOnly : Prop :=
  ∀ (s : State) (v : Word) (rest : List Event), s.rstN = true → s.agenda = .access (Access.wr 0x140C v) :: rest →
    ∃ t, step s = .next t ∧ t.status = s.status &&& ~~~(v &&& 0x0000000A)
      ∧ t = { s with done := t.done, werr := t.werr, resp := some ⟨none, none⟩, agenda := rest }

/-- 10_state.md R21, R41 to R43: while BUSY = 0 a read returns the written bits of the used field and the old value of all
others. -/
def Obligations.ReadReturnsTheWrittenBits : Prop :=
  ∀ (s : State) (off : BitVec 14) (v : Word) (rest : List Event), s.params.legal → s.rstN = true → s.busy = false →
    off.toNat % 4 = 0 → off ≠ 0x140C → off ≠ 0x1410 →
    s.agenda = .access (Access.wr off v) :: .access (Access.rd off) :: rest →
    ∃ t, Sys2Proof.core.run 2 s = .next t
      ∧ t.resp = some ⟨some ((v &&& writableBits s.params off.toNat)
          ||| (readLoc (locate s.params off.toNat) s &&& ~~~ writableBits s.params off.toNat)), none⟩

/-- 20_memory.md R64, 10_state.md R21: while BUSY = 0 a write changes no other location of the window, but for the writes
with side effects, of STATUS and CMD. -/
def Obligations.WriteLeavesOtherLocations : Prop :=
  ∀ (s : State) (off other : BitVec 14) (v : Word) (rest : List Event), s.params.legal → s.rstN = true →
    s.busy = false → off.toNat % 4 = 0 → other.toNat % 4 = 0 → off ≠ 0x140C → off ≠ 0x1410 → other ≠ off →
    s.agenda = .access (Access.wr off v) :: rest →
    ∃ t, step s = .next t
      ∧ readLoc (locate t.params other.toNat) t = readLoc (locate s.params other.toNat) s

/-- 20_memory.md R63: reserved offsets read 0 and ignore writes; a write while BUSY = 1 sets WERR. -/
def Obligations.ReservedOffsetsReadZeroIgnoreWrites : Prop :=
  ∀ (s : State) (off : BitVec 14) (v : Word) (rest : List Event), s.params.legal → s.rstN = true →
    off.toNat % 4 = 0 → reservedOffset s.params off.toNat →
    (s.agenda = .access (Access.rd off) :: rest →
      step s = .next { s with agenda := rest, resp := some ⟨some 0, none⟩ })
    ∧ (s.agenda = .access (Access.wr off v) :: rest → s.busy = false →
      step s = .next { s with agenda := rest, resp := some ⟨none, none⟩ })
    ∧ (s.agenda = .access (Access.wr off v) :: rest → s.busy = true →
      step s = .next { s with agenda := rest, resp := some ⟨none, none⟩, werr := true })

/-- 20_memory.md R64: a read changes nothing but the answer on the bus and the count of the model's free values. -/
def Obligations.ReadsHaveNoSideEffect : Prop :=
  ∀ (s : State) (a : Access) (rest : List Event), a.we = false → s.agenda = .access a :: rest →
    ∃ t, step s = .next t ∧ t = { s with agenda := rest, resp := t.resp, freeCount := t.freeCount }

/-- 20_memory.md R67: reads while BUSY = 1 return current values, but a free value for the result registers and MSG. The
model's choice: the free value is the one the counter numbers, and the counter advances (log 7). -/
def Obligations.ReadsWhileBusy : Prop :=
  ∀ (s : State) (off : BitVec 14) (rest : List Event), s.params.legal → s.rstN = true → s.busy = true →
    off.toNat % 4 = 0 → s.agenda = .access (Access.rd off) :: rest →
    (resultOffset s.params off.toNat →
      step s = .next { s with
        agenda := rest, resp := some ⟨some (Config.freeWord s.freeCount), none⟩, freeCount := s.freeCount + 1 })
    ∧ (¬ resultOffset s.params off.toNat →
      step s = .next { s with agenda := rest, resp := some ⟨some (readLoc (locate s.params off.toNat) s), none⟩ })

/-- 10_state.md R22, R23: ID and CFG read their constants in every state, BUSY or not (out of reset); no step changes the
configuration that CFG reports. -/
def Obligations.IdAndCfgReadTheirConstants : Prop :=
  ∀ (s : State) (rest : List Event), s.params.legal → s.rstN = true →
    (s.agenda = .access (Access.rd 0x1400) :: rest →
      ∃ t, step s = .next t ∧ t.resp = some ⟨some 0x46434531, none⟩)
    ∧ (s.agenda = .access (Access.rd 0x1404) :: rest →
      ∃ t d, step s = .next t ∧ t.resp = some ⟨some d, none⟩
        ∧ (d.extractLsb' 0 9).toNat = s.params.keyDepth ∧ (d.extractLsb' 9 7).toNat = 0
        ∧ (d.extractLsb' 16 14).toNat = s.params.msgBytes ∧ (d.extractLsb' 30 2).toNat = 0)
    ∧ ∀ t, step s = .next t → t.params = s.params

/-- 20_memory.md R66, R72: no host access changes what an in-flight command reads. -/
def Obligations.OperandsCannotChangeWhileBusy : Prop :=
  ∀ (s : State) (a : Access) (rest : List Event), s.busy = true → s.agenda = .access a :: rest →
    ∃ t, step s = .next t ∧ t.operands = s.operands ∧ t.snap = s.snap ∧ t.cmd = s.cmd ∧ t.busy = true
      ∧ t.params = s.params

/-! ### The status flags over all steps -/

/-- 10_state.md R26: BUSY is set only by acceptance and cleared only by completion or reset. -/
def Obligations.BusyChangesOnlyByAcceptanceCompletionReset : Prop :=
  ∀ s t : State, step s = .next t →
    (s.busy = false → t.busy = true → ∃ e a rest, s.agenda = e :: rest ∧ e.access? = some a ∧ s.rstN = true
        ∧ a.we = true ∧ a.size = 2 ∧ a.addr = 0x1410 ∧ t.cmd = a.wdata)
    ∧ (s.busy = true → t.busy = false →
        (s.rstN = true ∧ t.done = true) ∨ ∃ e rest, s.agenda = e :: rest ∧ e.isReset = true)

/-- 10_state.md R28: VALID changes only when a word of OP 0x6 is accepted (to 0), when a PAD_CHECK completes with ERR = 0,
or by reset. -/
def Obligations.ValidChangesOnlyByPadCheckOrReset : Prop :=
  ∀ s t : State, step s = .next t → t.valid ≠ s.valid →
    (∃ e a rest, s.agenda = e :: rest ∧ e.access? = some a ∧ s.busy = false ∧ a.we = true ∧ a.addr = 0x1410
        ∧ a.wdata.extractLsb' 0 4 = 0x6 ∧ t.valid = false)
    ∨ (s.busy = true ∧ decode s.cmd = .ok .padCheck ∧ t.busy = false ∧ t.err = .none)
    ∨ ∃ e rest, s.agenda = e :: rest ∧ e.isReset = true

/-- 10_state.md R29: WERR is set only by a write of an offset other than CTRL and STATUS while BUSY = 1, and cleared only by
a write of STATUS with bit 3 = 1 or by reset. -/
def Obligations.WerrIsStickyUntilClearedByTheHost : Prop :=
  ∀ s t : State, step s = .next t →
    (s.werr = false → t.werr = true → s.busy = true ∧ ∃ e a rest, s.agenda = e :: rest ∧ e.access? = some a
        ∧ a.we = true ∧ a.addr ≠ 0x1408 ∧ a.addr ≠ 0x140C)
    ∧ (s.werr = true → t.werr = false →
        (∃ e a rest, s.agenda = e :: rest ∧ e.access? = some a ∧ a.we = true ∧ a.addr = 0x140C
          ∧ a.wdata.getLsbD 3 = true)
        ∨ ∃ e rest, s.agenda = e :: rest ∧ e.isReset = true)

/-- 60_exceptions.md R210: `irq` is CTRL.IE and STATUS.DONE as read; it rises at a completion while IE = 1, and falls at a
write that clears DONE or IE, at an acceptance, and at reset. -/
def Obligations.IrqFollowsEnableAndDone : Prop :=
  ∀ (s : State) (rest : List Event), s.rstN = true →
    s.irq = ((readReg .ctrl s).getLsbD 0 && (readReg .status s).getLsbD 1)
    ∧ (s.busy = true → s.ie = true → s.agenda = .engine :: rest → ∃ t, step s = .next t ∧ t.irq = true)
    ∧ (∀ v : Word, v.getLsbD 1 = true → s.agenda = .access (Access.wr 0x140C v) :: rest →
        ∃ t, step s = .next t ∧ t.irq = false)
    ∧ (∀ v : Word, v.getLsbD 0 = false → s.agenda = .access (Access.wr 0x1408 v) :: rest →
        ∃ t, step s = .next t ∧ t.irq = false)
    ∧ (∀ w : Word, s.busy = false → s.agenda = .access (Access.wr 0x1410 w) :: rest →
        ∃ t, step s = .next t ∧ t.irq = false)
    ∧ (s.agenda = .resetEdge :: rest → ∃ t, step s = .next t ∧ t.irq = false)

/-! ### What every command leaves alone -/

/-- 10_state.md R24, R29, R31 to R36, R48, 40_control.md R112: a command writes none of the registers the host writes, and
always completes: BUSY 0, DONE 1. The last four fields are the model's own. -/
def Obligations.CommandsNeverWriteHostRegisters : Prop :=
  ∀ (i : Instr) (s : State), ∃ t, exec i s = .next t ∧ t.busy = false ∧ t.done = true
    ∧ t.ie = s.ie ∧ t.werr = s.werr ∧ t.cmd = s.cmd ∧ t.nrounds = s.nrounds ∧ t.len = s.len ∧ t.iv = s.iv
    ∧ t.blkIn = s.blkIn ∧ t.params = s.params ∧ t.rstN = s.rstN ∧ (i ≠ .padCheck → t.valid = s.valid)
    ∧ t.snap = s.snap ∧ t.resp = s.resp ∧ t.agenda = s.agenda ∧ t.freeCount = s.freeCount

/-- 10_state.md R41, R42, 20_memory.md R69: no command writes the S-box or key RAM or beyond MSG_BYTES, and only the three
buffer commands write the message buffer. -/
def Obligations.OnlyBufferCommandsWriteTheBuffer : Prop :=
  ∀ (i : Instr) (s t : State), s.params.legal → exec i s = .next t →
    (i ≠ .cbcEnc → i ≠ .cbcDecRaw → i ≠ .cbcDec → t.mem = s.mem)
    ∧ ∀ a, a < 0x2000 ∨ 0x2000 + s.params.msgBytes ≤ a → t.mem.byte a = s.mem.byte a

/-- 10_state.md R37 to R39: which commands may write BLK_OUT, CHAIN, RF_OUT and OUT_LEN. -/
def Obligations.ResultRegistersHaveTheirWriters : Prop :=
  ∀ (i : Instr) (s t : State), exec i s = .next t →
    (t.blkOut ≠ s.blkOut → i = .ecbEnc ∨ i = .ecbDec ∨ (∃ f, i = .cbcEncBlk f) ∨ ∃ f, i = .cbcDecBlk f)
    ∧ (t.chain ≠ s.chain →
        (∃ f, i = .cbcEncBlk f) ∨ (∃ f, i = .cbcDecBlk f) ∨ i = .cbcEnc ∨ i = .cbcDecRaw ∨ i = .cbcDec)
    ∧ (t.rfOut ≠ s.rfOut → ∃ k, i = .rfEval k)
    ∧ (t.outLen ≠ s.outLen → i = .cbcEnc ∨ i = .cbcDecRaw ∨ i = .cbcDec)

/-- 10_state.md R44 to R46: no result depends on what L, R, the counters and the latches held before the command. -/
def Obligations.HiddenRegistersAreNeverRead : Prop :=
  ∀ (i : Instr) (s : State) (h prev save : Block) (round block : Nat),
    ∃ t t', exec i s = .next t
      ∧ exec i { s with half := h, roundCounter := round, blockIndex := block, prevLatch := prev, saveLatch := save }
        = .next t'
      ∧ t.mem = t'.mem ∧ ∀ r : Reg, readReg r t = readReg r t'

/-! ### Errors -/

/-- 60_exceptions.md R201 to R203, 10_state.md R32: with NROUNDS = 0 or NROUNDS > KEY_DEPTH each of the eight cipher
commands raises E_BAD_NROUNDS, before any length check, and writes nothing else. -/
def Obligations.BadRoundCountFailsBeforeAnyWrite : Prop :=
  ∀ (i : Instr) (s : State), s.nrounds.toNat = 0 ∨ s.params.keyDepth < s.nrounds.toNat → i ≠ .nop →
    (∀ k, i ≠ .rfEval k) → exec i s = .next { s with err := .badNrounds, busy := false, done := true }

/-- 43_cbc.md R170, R175, 60_exceptions.md R203: a bad length raises E_BAD_LEN before anything is written. -/
def Obligations.BadLengthFailsBeforeAnyWrite : Prop :=
  ∀ s : State, s.roundsLegal →
    (s.params.msgBytes ≤ s.len.toNat →
      exec .cbcEnc s = .next { s with err := .badLen, busy := false, done := true })
    ∧ (s.len.toNat = 0 ∨ s.len.toNat % 8 ≠ 0 ∨ s.params.msgBytes < s.len.toNat →
      exec .cbcDecRaw s = .next { s with err := .badLen, busy := false, done := true }
      ∧ exec .cbcDec s = .next { s with err := .badLen, busy := false, done := true })

/-! ### NOP, the round function and the Feistel engine -/

/-- 40_control.md R113: NOP completes with ERR = 0 and writes nothing else. -/
def Obligations.NopOnlyCompletes : Prop :=
  ∀ s : State, exec .nop s = .next { s with err := .none, busy := false, done := true }

/-- 41_round_function.md R130: RF as arithmetic on numbers; byte i of k XOR d indexes table i; add, XOR, add mod 2^32. -/
def Obligations.RoundFunctionArithmetic : Prop :=
  ∀ (m : Memory) (k d : Word) (t : Nat → Nat) (entry : Nat → Nat),
    (∀ i, i < 4 → t i = (k ^^^ d).toNat / 256 ^ i % 256) →
    (∀ i, i < 4 → entry i = (m.byte (0x400 * i + 4 * t i)).toNat + 256 * (m.byte (0x400 * i + 4 * t i + 1)).toNat
      + 65536 * (m.byte (0x400 * i + 4 * t i + 2)).toNat + 16777216 * (m.byte (0x400 * i + 4 * t i + 3)).toNat) →
    (roundFunction m k d).toNat = ((((entry 0 + entry 1) % 2 ^ 32) ^^^ entry 2) + entry 3) % 2 ^ 32

/-- 41_round_function.md R131: RF_EVAL writes RF(KEY[k], BLK_IN1) to RF_OUT, or raises E_BAD_KIDX and writes nothing; it
does not read NROUNDS. -/
def Obligations.RfEvalEvaluatesTheRoundFunction : Prop :=
  ∀ (k : Nat) (s : State),
    (k < s.params.keyDepth → exec (.rfEval k) s = .next { s with
      rfOut := roundFunction s.mem (s.mem.key k) s.blkIn.R, err := .none, busy := false, done := true })
    ∧ (s.params.keyDepth ≤ k → exec (.rfEval k) s = .next { s with err := .badKidx, busy := false, done := true })

/-- 42_feistel.md R142, R145: ECB_ENC runs N rounds (L, R) <- (R, L XOR RF(KEY[i], R)), i ascending, with no final swap;
only BLK_OUT, STATUS and the engine's hidden registers change. -/
def Obligations.EcbEncRunsTheRounds : Prop :=
  ∀ (s : State) (L R : Nat → Word), s.roundsLegal → L 0 = s.blkIn.L → R 0 = s.blkIn.R →
    (∀ i, i < s.nrounds.toNat → L (i + 1) = R i ∧ R (i + 1) = L i ^^^ roundFunction s.mem (s.mem.key i) (R i)) →
    ∃ t, exec .ecbEnc s = .next t ∧ t = { s with
      blkOut := ⟨L s.nrounds.toNat, R s.nrounds.toNat⟩
      half := t.half, roundCounter := t.roundCounter, err := .none, busy := false, done := true }

/-- 42_feistel.md R143, R146: ECB_DEC runs N rounds (L, R) <- (R XOR RF(KEY[i], L), L), i descending. -/
def Obligations.EcbDecRunsTheRoundsBackwards : Prop :=
  ∀ (s : State) (L R : Nat → Word), s.roundsLegal → L 0 = s.blkIn.L → R 0 = s.blkIn.R →
    (∀ i, i < s.nrounds.toNat →
      L (i + 1) = R i ^^^ roundFunction s.mem (s.mem.key (s.nrounds.toNat - 1 - i)) (L i) ∧ R (i + 1) = L i) →
    ∃ t, exec .ecbDec s = .next t ∧ t = { s with
      blkOut := ⟨L s.nrounds.toNat, R s.nrounds.toNat⟩
      half := t.half, roundCounter := t.roundCounter, err := .none, busy := false, done := true }

/-- 42_feistel.md R144: Dec(Enc(x)) = x and Enc(Dec(x)) = x, run as commands: the BLK_OUT of the one fed to the other gives
the first input back. -/
def Obligations.EcbRoundTrips : Prop :=
  ∀ s : State, s.roundsLegal →
    (∃ t u, exec .ecbEnc s = .next t ∧ exec .ecbDec { t with blkIn := t.blkOut } = .next u ∧ u.blkOut = s.blkIn
      ∧ t.err = .none ∧ u.err = .none)
    ∧ ∃ t u, exec .ecbDec s = .next t ∧ exec .ecbEnc { t with blkIn := t.blkOut } = .next u ∧ u.blkOut = s.blkIn
      ∧ t.err = .none ∧ u.err = .none

/-- 42_feistel.md R148: decode is encode under the reversed key sequence on the exchanged halves, exchanged. -/
def Obligations.DecodeIsSwappedEncode : Prop :=
  ∀ (m : Memory) (n : Nat) (b : Block),
    decBlock m n b = (feistelEnc (roundFunction m) (keySchedule m n).reverse b.swap).swap

/-! ### The CBC controller -/

/-- 43_cbc.md R165, R167: CBC_ENC_BLK; the ciphertext goes to BLK_OUT and CHAIN. Enc is characterised by
EcbEncRunsTheRounds. -/
def Obligations.CbcEncBlkEncodesOneBlock : Prop :=
  ∀ (s : State) (sel : Feedback), s.roundsLegal →
    ∃ t c, exec (.cbcEncBlk sel) s = .next t
      ∧ c = encBlock s.mem s.nrounds.toNat
          ⟨s.blkIn.L ^^^ (if sel = .iv then s.iv else s.chain).L, s.blkIn.R ^^^ (if sel = .iv then s.iv else s.chain).R⟩
      ∧ t = { s with
          blkOut := c, chain := c, err := .none, busy := false, done := true
          half := t.half, roundCounter := t.roundCounter, blockIndex := t.blockIndex, prevLatch := t.prevLatch
          saveLatch := t.saveLatch }

/-- 43_cbc.md R166, R167: CBC_DEC_BLK; the plaintext goes to BLK_OUT, the ciphertext BLK_IN to CHAIN; the feedback is read
before CHAIN is overwritten. -/
def Obligations.CbcDecBlkDecodesOneBlock : Prop :=
  ∀ (s : State) (sel : Feedback), s.roundsLegal →
    ∃ t d, exec (.cbcDecBlk sel) s = .next t ∧ d = decBlock s.mem s.nrounds.toNat s.blkIn
      ∧ t = { s with
          blkOut := ⟨d.L ^^^ (if sel = .iv then s.iv else s.chain).L, d.R ^^^ (if sel = .iv then s.iv else s.chain).R⟩
          chain := s.blkIn, err := .none, busy := false, done := true
          half := t.half, roundCounter := t.roundCounter, blockIndex := t.blockIndex, prevLatch := t.prevLatch
          saveLatch := t.saveLatch }

/-- 43_cbc.md R168: block commands, IV first and then CHAIN, give the ciphertext blocks of R163 and the plaintext blocks of
R164. -/
def Obligations.BlockCommandsChainLikeCbc : Prop :=
  ∀ (s : State) (blocks : List Block), s.roundsLegal →
    (∃ t, runBlockCommands .cbcEncBlk .iv blocks s
      = some (cbcCiphertext (encBlock s.mem s.nrounds.toNat) s.iv blocks, t))
    ∧ ∃ t, runBlockCommands .cbcDecBlk .iv blocks s
      = some (cbcPlaintext (decBlock s.mem s.nrounds.toNat) s.iv blocks, t)

/-- 43_cbc.md R160, R161, R163, R171: in a legal configuration, with a legal round count, CBC_ENC pads the message with p bytes of value p and replaces each block by Enc of it
XOR the ciphertext block before it (the IV for the first); CHAIN is the last ciphertext block, OUT_LEN is n + p, and no byte
outside the m blocks changes. -/
def Obligations.CbcEncPadsAndChains : Prop :=
  ∀ (s : State) (n p m : Nat), s.params.legal → s.roundsLegal → n = s.len.toNat → n < s.params.msgBytes →
    p = 8 - n % 8 → m = (n + p) / 8 →
    ∃ t, exec .cbcEnc s = .next t
      ∧ t = { s with
          mem := t.mem, chain := t.mem.block (m - 1), outLen := t.outLen, err := .none, busy := false, done := true
          half := t.half, roundCounter := t.roundCounter, blockIndex := t.blockIndex, prevLatch := t.prevLatch
          saveLatch := t.saveLatch }
      ∧ t.outLen.toNat = n + p
      ∧ (∀ b, b < m → ∀ P : Block,
          (∀ j, j < 8 → P.byte j = if 8 * b + j < n then s.mem.msg (8 * b + j) else BitVec.ofNat 8 p) →
          t.mem.block b
            = encBlock s.mem s.nrounds.toNat (P.xor (if b = 0 then s.iv else t.mem.block (b - 1))))
      ∧ ∀ a, a < 0x2000 ∨ 0x2000 + (n + p) ≤ a → t.mem.byte a = s.mem.byte a

/-- 43_cbc.md R164, R176: CBC_DEC_RAW replaces each block by Dec of it XOR the ciphertext block that stood before it (the IV
for the first); CHAIN is the last ciphertext block, OUT_LEN is n, and no byte outside the n bytes changes. -/
def Obligations.CbcDecRawChainsOnCiphertext : Prop :=
  ∀ (s : State) (n : Nat), s.params.legal → s.roundsLegal → n = s.len.toNat → n ≠ 0 → n % 8 = 0 →
    n ≤ s.params.msgBytes →
    ∃ t, exec .cbcDecRaw s = .next t
      ∧ t = { s with
          mem := t.mem, chain := s.mem.block (n / 8 - 1), outLen := s.len, err := .none, busy := false, done := true
          half := t.half, roundCounter := t.roundCounter, blockIndex := t.blockIndex, prevLatch := t.prevLatch
          saveLatch := t.saveLatch }
      ∧ (∀ b, b < n / 8 → t.mem.block b
          = (decBlock s.mem s.nrounds.toNat (s.mem.block b)).xor (if b = 0 then s.iv else s.mem.block (b - 1)))
      ∧ ∀ a, a < 0x2000 ∨ 0x2000 + n ≤ a → t.mem.byte a = s.mem.byte a

/-- 43_cbc.md R164, R177, R178: CBC_DEC decodes the buffer as CBC_DEC_RAW does, then reads the last decoded byte p: OUT_LEN
is n - p with ERR = 0 for p in 1..8, otherwise OUT_LEN is 0 and ERR is E_BAD_PAD. Of the decoded bytes the outcome depends on
the last one only. -/
def Obligations.CbcDecStripsByTheLastByte : Prop :=
  ∀ (s : State) (n : Nat), s.params.legal → s.roundsLegal → n = s.len.toNat → n ≠ 0 → n % 8 = 0 →
    n ≤ s.params.msgBytes →
    ∃ t, exec .cbcDec s = .next t
      ∧ t = { s with
          mem := t.mem, chain := s.mem.block (n / 8 - 1), outLen := t.outLen, err := t.err, busy := false, done := true
          half := t.half, roundCounter := t.roundCounter, blockIndex := t.blockIndex, prevLatch := t.prevLatch
          saveLatch := t.saveLatch }
      ∧ (t.err = .none ∧ t.outLen.toNat = n - (t.mem.msg (n - 1)).toNat ∧ 1 ≤ (t.mem.msg (n - 1)).toNat
            ∧ (t.mem.msg (n - 1)).toNat ≤ 8
          ∨ t.err = .badPad ∧ t.outLen = 0 ∧ ((t.mem.msg (n - 1)).toNat = 0 ∨ 8 < (t.mem.msg (n - 1)).toNat))
      ∧ (∀ b, b < n / 8 → t.mem.block b
          = (decBlock s.mem s.nrounds.toNat (s.mem.block b)).xor (if b = 0 then s.iv else s.mem.block (b - 1)))
      ∧ ∀ a, a < 0x2000 ∨ 0x2000 + n ≤ a → t.mem.byte a = s.mem.byte a

/-- 43_cbc.md R179: the CBC round trip: CBC_ENC, then CBC_DEC with LEN the OUT_LEN it produced, both complete with ERR = 0
and leave the plaintext and its length. -/
def Obligations.CbcRoundTripRestoresTheMessage : Prop :=
  ∀ s : State, s.params.legal → s.roundsLegal → s.len.toNat ≤ s.params.msgBytes - 1 →
    ∃ t u, exec .cbcEnc s = .next t ∧ exec .cbcDec { t with len := t.outLen } = .next u
      ∧ t.err = .none ∧ u.err = .none ∧ (∀ j, j < s.len.toNat → u.mem.msg j = s.mem.msg j) ∧ u.outLen = s.len

/-! ### The padding validator -/

/-- 44_padding_validator.md R190, R191: PAD_CHECK sets VALID iff the last byte q of Dec(BLK_IN) XOR IV is in 1..8 and the
last q bytes all equal q; it writes STATUS and the hidden L, R and round counter only. -/
def Obligations.PadCheckDecidesThePadding : Prop :=
  ∀ (s : State) (P : Block), s.roundsLegal → P = (decBlock s.mem s.nrounds.toNat s.blkIn).xor s.iv →
    ∃ t, exec .padCheck s = .next t
      ∧ (t.valid = true ↔ 1 ≤ (P.byte 7).toNat ∧ (P.byte 7).toNat ≤ 8
          ∧ ∀ j, 8 - (P.byte 7).toNat ≤ j → j ≤ 7 → P.byte j = P.byte 7)
      ∧ t = { s with
          valid := t.valid, err := .none, busy := false, done := true, half := t.half, roundCounter := t.roundCounter }

/-- 44_padding_validator.md R193: the comparison unit computes the predicate of R191 on every block. -/
def Obligations.ComparisonUnitComputesValidity : Prop :=
  ∀ P : Block, comparisonUnit P = validPadding P

/-- 44_padding_validator.md R192: two machines that differ only in their RAMs (tables, keys, message) and whose PAD_CHECK
gives one VALID cannot be told apart by any register or by `irq` after it, and neither RAM changes. -/
def Obligations.PadCheckRevealsOnlyValid : Prop :=
  ∀ (s t t' : State) (secret : Memory), exec .padCheck s = .next t → exec .padCheck { s with mem := secret } = .next t' →
    t.mem = s.mem ∧ t'.mem = secret ∧ (t.valid = t'.valid → (∀ r : Reg, readReg r t = readReg r t') ∧ t.irq = t'.irq)

/-- 44_padding_validator.md R194: the block PAD_CHECK judges is the BLK_OUT of CBC_DEC_BLK IV on the same operands. -/
def Obligations.PadCheckJudgesTheDecodedBlock : Prop :=
  ∀ s : State, s.roundsLegal →
    ∃ t u, exec (.cbcDecBlk .iv) s = .next t ∧ exec .padCheck s = .next u ∧ u.valid = validPadding t.blkOut

/-- 44_padding_validator.md R195: in a legal configuration, with a legal round count, on the last ciphertext block CBC_ENC produced, with the block before it (or the IV) as IV,
PAD_CHECK answers VALID = 1. -/
def Obligations.OracleAcceptsGenuineCiphertext : Prop :=
  ∀ (s : State) (m : Nat), s.params.legal → s.roundsLegal → s.len.toNat < s.params.msgBytes →
    m = s.len.toNat / 8 + 1 →
    ∃ t u, exec .cbcEnc s = .next t
      ∧ exec .padCheck { t with
          iv := if m = 1 then s.iv else t.mem.block (m - 2), blkIn := t.mem.block (m - 1) } = .next u
      ∧ u.err = .none ∧ u.valid = true
end

