-- ==== Sys2Proof/Laws/Memory.lean ====
section
/-! SUPPORT. The laws of the RAMs: read after write, what a write leaves alone, and that every operation keeps the
canonical form. -/

namespace Sys2Proof.Machine

/-! ### Words and bytes -/

theorem getLsbD_wordOfBytes (b0 b1 b2 b3 : Byte) (i : Nat) :
    (wordOfBytes b0 b1 b2 b3).getLsbD i
      = if i < 8 then b0.getLsbD i else if i < 16 then b1.getLsbD (i - 8)
        else if i < 24 then b2.getLsbD (i - 16) else b3.getLsbD (i - 24) := by
  have h0 := @BitVec.getLsbD_append 24 8 i (b3 ++ b2 ++ b1) b0
  have h1 := @BitVec.getLsbD_append 16 8 (i - 8) (b3 ++ b2) b1
  have h2 := @BitVec.getLsbD_append 8 8 (i - 8 - 8) b3 b2
  refine h0.trans ?_
  by_cases c0 : i < 8
  · simp [c0]
  by_cases c1 : i < 16
  · simp [c0, c1] at h1 ⊢
    exact h1.trans (if_pos (by omega))
  by_cases c2 : i < 24
  · simp [c0, c1, c2] at h1 h2 ⊢
    rw [if_neg (by omega)] at h1
    rw [if_pos (by omega)] at h2
    exact h1.trans h2
  · simp [c0, c1, c2] at h1 h2 ⊢
    rw [if_neg (by omega)] at h1
    rw [if_neg (by omega)] at h2
    exact h1.trans h2

theorem getLsbD_byteOf (w : Word) (k i : Nat) : (byteOf w k).getLsbD i = (decide (i < 8) && w.getLsbD (8 * k + i)) :=
  BitVec.getLsbD_extractLsb' ..

theorem byteOf_wordOfBytes_0 (b0 b1 b2 b3 : Byte) : byteOf (wordOfBytes b0 b1 b2 b3) 0 = b0 := by
  apply BitVec.eq_of_getLsbD_eq
  intro i hi
  rw [getLsbD_byteOf, getLsbD_wordOfBytes, if_pos (by omega)]
  simp [hi]

theorem byteOf_wordOfBytes_1 (b0 b1 b2 b3 : Byte) : byteOf (wordOfBytes b0 b1 b2 b3) 1 = b1 := by
  apply BitVec.eq_of_getLsbD_eq
  intro i hi
  rw [getLsbD_byteOf, getLsbD_wordOfBytes, if_neg (by omega), if_pos (by omega)]
  simp [hi]

theorem byteOf_wordOfBytes_2 (b0 b1 b2 b3 : Byte) : byteOf (wordOfBytes b0 b1 b2 b3) 2 = b2 := by
  apply BitVec.eq_of_getLsbD_eq
  intro i hi
  rw [getLsbD_byteOf, getLsbD_wordOfBytes, if_neg (by omega), if_neg (by omega), if_pos (by omega)]
  simp [hi]

theorem byteOf_wordOfBytes_3 (b0 b1 b2 b3 : Byte) : byteOf (wordOfBytes b0 b1 b2 b3) 3 = b3 := by
  apply BitVec.eq_of_getLsbD_eq
  intro i hi
  rw [getLsbD_byteOf, getLsbD_wordOfBytes, if_neg (by omega), if_neg (by omega), if_neg (by omega)]
  simp [hi]

/-- A word is its four bytes, little-endian. -/
theorem wordOfBytes_byteOf (w : Word) : wordOfBytes (byteOf w 0) (byteOf w 1) (byteOf w 2) (byteOf w 3) = w := by
  apply BitVec.eq_of_getLsbD_eq
  intro i hi
  rw [getLsbD_wordOfBytes]
  simp only [getLsbD_byteOf]
  split
  · simp [*]
  split
  · rw [show 8 * 1 + (i - 8) = i by omega]; simp; omega
  split
  · rw [show 8 * 2 + (i - 16) = i by omega]; simp; omega
  · rw [show 8 * 3 + (i - 24) = i by omega]; simp; omega

/-- Two words with equal bytes are equal. -/
theorem word_ext {v w : Word} (h : ∀ i, i < 4 → byteOf v i = byteOf w i) : v = w := by
  rw [← wordOfBytes_byteOf v, ← wordOfBytes_byteOf w, h 0 (by omega), h 1 (by omega), h 2 (by omega), h 3 (by omega)]

/-- Two blocks with equal bytes are equal. -/
theorem block_ext {a b : Block} (h : ∀ j, j < 8 → a.byte j = b.byte j) : a = b := by
  have hL : a.L = b.L := word_ext fun i hi => by simpa [Block.byte, hi] using h i (by omega)
  have hR : a.R = b.R := word_ext fun i hi => by simpa [Block.byte] using h (i + 4) (by omega)
  cases a; cases b; simp_all

/-! ### Cells -/

theorem lookupCell_putCell_same (l : List Host.Cell) (a : Nat) (v : Byte) : lookupCell (putCell l a v) a = some v := by
  induction l with
  | nil => simp [putCell, lookupCell]
  | cons c rest ih =>
    obtain ⟨k, x⟩ := c
    simp only [putCell]
    split
    · simp [lookupCell]
    · split
      · simp [lookupCell]
      · simp only [lookupCell]
        rw [if_neg (by omega), if_neg (by omega), ih]

theorem lookupCell_putCell_other (l : List Host.Cell) {a a' : Nat} (v : Byte) (h : a' ≠ a) :
    lookupCell (putCell l a v) a' = lookupCell l a' := by
  induction l with
  | nil => simp [putCell, lookupCell, Ne.symm h]
  | cons c rest ih =>
    obtain ⟨k, x⟩ := c
    simp only [putCell]
    split
    · rename_i hak
      simp only [lookupCell]
      rw [if_neg (Ne.symm h)]
      split
      · rw [if_neg (by omega), if_pos (by omega)]
      · rfl
    · split
      · subst_vars
        simp only [lookupCell]
        rw [if_neg (Ne.symm h), if_neg (Ne.symm h)]
      · simp only [lookupCell, ih]

theorem mem_putCell {l : List Host.Cell} {a : Nat} {v : Byte} {c : Host.Cell} (h : c ∈ putCell l a v) :
    c = (a, v) ∨ c ∈ l := by
  induction l with
  | nil => simpa [putCell] using h
  | cons d rest ih =>
    obtain ⟨k, x⟩ := d
    simp only [putCell] at h
    split at h
    · simpa using h
    · split at h
      · rcases List.mem_cons.mp h with h | h
        · exact .inl h
        · exact .inr (List.mem_cons_of_mem _ h)
      · rcases List.mem_cons.mp h with h | h
        · exact .inr (h ▸ List.mem_cons_self)
        · exact (ih h).imp id (List.mem_cons_of_mem _)

theorem putCell_rising {l : List Host.Cell} (a : Nat) (v : Byte) (h : l.Pairwise (fun x y => x.1 < y.1)) :
    (putCell l a v).Pairwise (fun x y => x.1 < y.1) := by
  induction l with
  | nil => simp [putCell]
  | cons d rest ih =>
    obtain ⟨k, x⟩ := d
    obtain ⟨hk, hrest⟩ := List.pairwise_cons.mp h
    simp only [putCell]
    split
    · rename_i hak
      refine List.pairwise_cons.mpr ⟨fun c hc => ?_, h⟩
      rcases List.mem_cons.mp hc with rfl | hc
      · exact hak
      · exact Nat.lt_trans hak (hk c hc)
    · split
      · rename_i hak
        subst hak
        exact List.pairwise_cons.mpr ⟨hk, hrest⟩
      · refine List.pairwise_cons.mpr ⟨fun c hc => ?_, ih hrest⟩
        rcases mem_putCell hc with rfl | hc
        · show k < a
          omega
        · exact hk c hc

/-! ### Bytes of RAM -/

@[simp] theorem byte_setByte_same (m : Memory) (a : Nat) (v : Byte) : (m.setByte a v).byte a = v := by
  simp [Memory.byte, Memory.setByte, lookupCell_putCell_same]

theorem byte_setByte_other (m : Memory) {a a' : Nat} (v : Byte) (h : a' ≠ a) :
    (m.setByte a v).byte a' = m.byte a' := by
  simp only [Memory.byte, Memory.setByte, lookupCell_putCell_other _ _ h]
  rfl

@[simp] theorem setByte_ramEpoch (m : Memory) (a : Nat) (v : Byte) : (m.setByte a v).ramEpoch = m.ramEpoch := rfl
@[simp] theorem setByte_msgEpoch (m : Memory) (a : Nat) (v : Byte) : (m.setByte a v).msgEpoch = m.msgEpoch := rfl
@[simp] theorem setWord_ramEpoch (m : Memory) (a : Nat) (w : Word) : (m.setWord a w).ramEpoch = m.ramEpoch := rfl
@[simp] theorem setWord_msgEpoch (m : Memory) (a : Nat) (w : Word) : (m.setWord a w).msgEpoch = m.msgEpoch := rfl
@[simp] theorem setBlock_ramEpoch (m : Memory) (b : Nat) (v : Block) : (m.setBlock b v).ramEpoch = m.ramEpoch := rfl
@[simp] theorem setBlock_msgEpoch (m : Memory) (b : Nat) (v : Block) : (m.setBlock b v).msgEpoch = m.msgEpoch := rfl

@[simp] theorem fillMsg_ramEpoch (m : Memory) (j : Nat) (v : Byte) (n : Nat) :
    (m.fillMsg j v n).ramEpoch = m.ramEpoch := by
  induction n generalizing m j with
  | zero => rfl
  | succ n ih => simp [Memory.fillMsg, ih]

@[simp] theorem fillMsg_msgEpoch (m : Memory) (j : Nat) (v : Byte) (n : Nat) :
    (m.fillMsg j v n).msgEpoch = m.msgEpoch := by
  induction n generalizing m j with
  | zero => rfl
  | succ n ih => simp [Memory.fillMsg, ih]

theorem setByte_wf {p : Params} {m : Memory} {a : Nat} (v : Byte) (h : m.wf p) (ha : implemented p a = true) :
    (m.setByte a v).wf p := by
  refine ⟨putCell_rising a v h.1, fun c hc => ?_⟩
  rcases mem_putCell hc with rfl | hc
  · exact ha
  · exact h.2 c hc

/-! ### Words of RAM -/

/-- Everything a word write does, byte by byte. -/
theorem byte_setWord (m : Memory) (a : Nat) (w : Word) (x : Nat) :
    (m.setWord a w).byte x = if a ≤ x ∧ x < a + 4 then byteOf w (x - a) else m.byte x := by
  simp only [Memory.setWord]
  by_cases h3 : x = a + 3
  · subst h3; simp
  rw [byte_setByte_other _ _ h3]
  by_cases h2 : x = a + 2
  · subst h2; simp
  rw [byte_setByte_other _ _ h2]
  by_cases h1 : x = a + 1
  · subst h1; simp
  rw [byte_setByte_other _ _ h1]
  by_cases h0 : x = a
  · subst h0; simp
  rw [byte_setByte_other _ _ h0, if_neg (by omega)]

@[simp] theorem word_setWord_same (m : Memory) (a : Nat) (w : Word) : (m.setWord a w).word a = w := by
  simp only [Memory.word, byte_setWord]
  simp [wordOfBytes_byteOf]

theorem word_setWord_other (m : Memory) {a a' : Nat} (w : Word) (h : a' + 4 ≤ a ∨ a + 4 ≤ a') :
    (m.setWord a w).word a' = m.word a' := by
  simp only [Memory.word, byte_setWord]
  rw [if_neg (by omega), if_neg (by omega), if_neg (by omega), if_neg (by omega)]

theorem setWord_wf {p : Params} {m : Memory} {a : Nat} (w : Word) (h : m.wf p)
    (ha : ∀ i, i < 4 → implemented p (a + i) = true) : (m.setWord a w).wf p :=
  setByte_wf _ (setByte_wf _ (setByte_wf _ (setByte_wf _ h (ha 0 (by omega))) (ha 1 (by omega))) (ha 2 (by omega)))
    (ha 3 (by omega))

/-- Words agree where their bytes do. -/
theorem word_congr {m m' : Memory} {a : Nat} (h : ∀ i, i < 4 → m.byte (a + i) = m'.byte (a + i)) :
    m.word a = m'.word a := by
  have h0 := h 0 (by omega)
  have h1 := h 1 (by omega)
  have h2 := h 2 (by omega)
  have h3 := h 3 (by omega)
  simp only [Nat.add_zero] at h0
  simp only [Memory.word, h0, h1, h2, h3]

theorem byteOf_word (m : Memory) (a i : Nat) (hi : i < 4) : byteOf (m.word a) i = m.byte (a + i) := by
  unfold Memory.word
  have : i = 0 ∨ i = 1 ∨ i = 2 ∨ i = 3 := by omega
  rcases this with rfl | rfl | rfl | rfl
  · exact byteOf_wordOfBytes_0 ..
  · exact byteOf_wordOfBytes_1 ..
  · exact byteOf_wordOfBytes_2 ..
  · exact byteOf_wordOfBytes_3 ..

/-! ### Blocks of the message buffer -/

/-- Byte `j` of block `b` is MSG[8b + j]. -/
theorem byte_block (m : Memory) (b j : Nat) (hj : j < 8) : (m.block b).byte j = m.msg (8 * b + j) := by
  unfold Block.byte Memory.block Memory.msg msgAddr
  split
  · rename_i h
    rw [byteOf_word _ _ _ h]
    congr 1
    omega
  · rename_i h
    rw [byteOf_word _ _ _ (by omega)]
    congr 1
    omega

/-- Everything a block write does, byte by byte. -/
theorem byte_setBlock (m : Memory) (b : Nat) (v : Block) (x : Nat) :
    (m.setBlock b v).byte x
      = if msgAddr (8 * b) ≤ x ∧ x < msgAddr (8 * b) + 8 then v.byte (x - msgAddr (8 * b)) else m.byte x := by
  have e : msgAddr (8 * b + 4) = msgAddr (8 * b) + 4 := by unfold msgAddr; omega
  unfold Memory.setBlock
  rw [byte_setWord, byte_setWord, e]
  unfold Block.byte
  by_cases h : msgAddr (8 * b) + 4 ≤ x ∧ x < msgAddr (8 * b) + 4 + 4
  · rw [if_pos h, if_pos (by omega), if_neg (by omega), Nat.sub_add_eq]
  · rw [if_neg h]
    by_cases h' : msgAddr (8 * b) ≤ x ∧ x < msgAddr (8 * b) + 4
    · rw [if_pos h', if_pos (by omega), if_pos (by omega)]
    · rw [if_neg h', if_neg (by omega)]

@[simp] theorem block_setBlock_same (m : Memory) (b : Nat) (v : Block) : (m.setBlock b v).block b = v := by
  refine block_ext fun j hj => ?_
  rw [byte_block _ _ _ hj, Memory.msg, byte_setBlock, if_pos (by simp only [msgAddr]; omega)]
  congr 1
  simp only [msgAddr]
  omega

theorem block_setBlock_other (m : Memory) {b b' : Nat} (v : Block) (h : b' ≠ b) :
    (m.setBlock b v).block b' = m.block b' := by
  refine block_ext fun j hj => ?_
  rw [byte_block _ _ _ hj, byte_block _ _ _ hj, Memory.msg, Memory.msg, byte_setBlock,
    if_neg (by simp only [msgAddr]; omega)]

theorem implemented_msg {p : Params} {j : Nat} (h : j < p.msgBytes) : implemented p (msgAddr j) = true := by
  unfold implemented msgAddr
  rw [Bool.or_eq_true, Bool.and_eq_true]
  exact .inr ⟨decide_eq_true (by omega), decide_eq_true (by omega)⟩

theorem setBlock_wf {p : Params} {m : Memory} {b : Nat} (v : Block) (h : m.wf p) (hb : 8 * b + 8 ≤ p.msgBytes) :
    (m.setBlock b v).wf p := by
  refine setWord_wf _ (setWord_wf _ h fun i hi => ?_) fun i hi => ?_
  · have : msgAddr (8 * b) + i = msgAddr (8 * b + i) := by simp only [msgAddr]; omega
    rw [this]
    exact implemented_msg (by omega)
  · have : msgAddr (8 * b + 4) + i = msgAddr (8 * b + 4 + i) := by simp only [msgAddr]; omega
    rw [this]
    exact implemented_msg (by omega)

/-! ### Filling with padding -/

/-- Everything the padding fill does, byte by byte. -/
theorem byte_fillMsg (m : Memory) (j : Nat) (v : Byte) (n x : Nat) :
    (m.fillMsg j v n).byte x = if msgAddr j ≤ x ∧ x < msgAddr j + n then v else m.byte x := by
  induction n generalizing m j with
  | zero => simp only [Memory.fillMsg]; rw [if_neg (by omega)]
  | succ n ih =>
    have e : msgAddr (j + 1) = msgAddr j + 1 := by unfold msgAddr; omega
    simp only [Memory.fillMsg]
    rw [ih, e]
    by_cases h : x = msgAddr j
    · subst h
      rw [if_neg (by omega), if_pos (by omega), byte_setByte_same]
    · rw [byte_setByte_other _ _ h]
      by_cases h' : msgAddr j + 1 ≤ x ∧ x < msgAddr j + 1 + n
      · rw [if_pos h', if_pos (by omega)]
      · rw [if_neg h', if_neg (by omega)]

theorem fillMsg_wf {p : Params} {m : Memory} {j : Nat} (v : Byte) {n : Nat} (h : m.wf p)
    (hn : j + n ≤ p.msgBytes) : (m.fillMsg j v n).wf p := by
  induction n generalizing m j with
  | zero => exact h
  | succ n ih => exact ih (setByte_wf _ h (implemented_msg (by omega))) (by omega)

/-! ### Resets -/

theorem lookupCell_takeWhile_below (l : List Host.Cell) {n a : Nat} (ha : a < n) :
    lookupCell (l.takeWhile (fun c => decide (c.1 < n))) a = lookupCell l a := by
  induction l with
  | nil => rfl
  | cons c rest ih =>
    obtain ⟨k, x⟩ := c
    by_cases hk : k < n
    · simp [hk, lookupCell, ih]
    · have h1 : ¬ k = a := by omega
      have h2 : a < k := by omega
      simp [hk, lookupCell, h1, h2]

theorem lookupCell_takeWhile_above (l : List Host.Cell) {n a : Nat} (ha : n ≤ a) :
    lookupCell (l.takeWhile (fun c => decide (c.1 < n))) a = none := by
  induction l with
  | nil => rfl
  | cons c rest ih =>
    obtain ⟨k, x⟩ := c
    by_cases hk : k < n
    · have h1 : ¬ k = a := by omega
      have h2 : ¬ a < k := by omega
      simp [hk, lookupCell, h1, h2, ih]
    · simp [hk, lookupCell]

/-- Everything R231's redraw of the message buffer does, byte by byte. -/
theorem byte_redrawMsg (m : Memory) (epoch x : Nat) :
    (m.redrawMsg epoch).byte x = if x < 0x2000 then m.byte x else Config.ramInit epoch x := by
  unfold Memory.byte Memory.redrawMsg Memory.unlisted
  by_cases h : x < 0x2000
  · simp only [lookupCell_takeWhile_below _ h, h, if_true]
  · simp only [lookupCell_takeWhile_above _ (Nat.le_of_not_lt h), h, if_false, Option.getD_none]

theorem redrawMsg_wf {p : Params} {m : Memory} (epoch : Nat) (h : m.wf p) : (m.redrawMsg epoch).wf p :=
  ⟨h.1.sublist (List.takeWhile_sublist _), fun c hc => h.2 c ((List.takeWhile_sublist _).subset hc)⟩

/-- RAMs that nothing has written are in canonical form, in every configuration. -/
theorem unwritten_wf (p : Params) : Memory.unwritten.wf p := ⟨List.Pairwise.nil, fun _ h => nomatch h⟩

end Sys2Proof.Machine
end

