-- ==== Sys2Proof/Laws/Feistel.lean ====
section
/-! SUPPORT. The laws of the round function and of the Feistel engine. -/

namespace Sys2Proof

@[simp] theorem Block.xor_xor_cancel (a b : Block) : (a.xor b).xor b = a := by
  cases a
  cases b
  simp [Block.xor]

@[simp] theorem Block.swap_swap (a : Block) : a.swap.swap = a := rfl

/-- The block XOR is byte-wise (R11, R162). -/
theorem Block.byte_xor (a b : Block) (j : Nat) : (a.xor b).byte j = a.byte j ^^^ b.byte j := by
  unfold Block.byte Block.xor byteOf
  split <;> apply BitVec.eq_of_getLsbD_eq <;> intro i hi <;> simp [hi]

namespace Machine

/-! ### Rounds -/

@[simp] theorem decRound_encRound (rf : Word → Word → Word) (b : Block) (k : Word) :
    decRound rf (encRound rf b k) k = b := by
  cases b
  simp [decRound, encRound]

@[simp] theorem encRound_decRound (rf : Word → Word → Word) (b : Block) (k : Word) :
    encRound rf (decRound rf b k) k = b := by
  cases b
  simp [decRound, encRound]

/-- One decode round is an encode round on the exchanged halves (R148). -/
theorem decRound_eq_swap (rf : Word → Word → Word) (b : Block) (k : Word) :
    decRound rf b k = (encRound rf b.swap k).swap := rfl

/-! ### Key sequences -/

@[simp] theorem feistelEnc_cons (rf : Word → Word → Word) (k : Word) (keys : List Word) (b : Block) :
    feistelEnc rf (k :: keys) b = feistelEnc rf keys (encRound rf b k) := rfl

@[simp] theorem feistelDec_cons (rf : Word → Word → Word) (k : Word) (keys : List Word) (b : Block) :
    feistelDec rf (k :: keys) b = decRound rf (feistelDec rf keys b) k := by
  simp [feistelDec]

theorem feistelEnc_append (rf : Word → Word → Word) (ks ls : List Word) (b : Block) :
    feistelEnc rf (ks ++ ls) b = feistelEnc rf ls (feistelEnc rf ks b) := List.foldl_append

theorem feistelDec_append (rf : Word → Word → Word) (ks ls : List Word) (b : Block) :
    feistelDec rf (ks ++ ls) b = feistelDec rf ks (feistelDec rf ls b) := by
  simp [feistelDec]

/-- Decoding undoes encoding, whatever the round function is. -/
theorem feistelDec_feistelEnc (rf : Word → Word → Word) (keys : List Word) (b : Block) :
    feistelDec rf keys (feistelEnc rf keys b) = b := by
  induction keys generalizing b with
  | nil => rfl
  | cons k keys ih => simp [ih]

/-- Encoding undoes decoding, whatever the round function is. -/
theorem feistelEnc_feistelDec (rf : Word → Word → Word) (keys : List Word) (b : Block) :
    feistelEnc rf keys (feistelDec rf keys b) = b := by
  induction keys generalizing b with
  | nil => rfl
  | cons k keys ih => simp [ih]

@[simp] theorem keySchedule_length (m : Memory) (n : Nat) : (keySchedule m n).length = n := by simp [keySchedule]

/-- One more round is one more key at the end of the sequence. -/
theorem keySchedule_succ (m : Memory) (n : Nat) : keySchedule m (n + 1) = keySchedule m n ++ [m.key n] := by
  simp [keySchedule, List.range_succ]

theorem encBlock_succ (m : Memory) (n : Nat) (b : Block) :
    encBlock m (n + 1) b = encRound (roundFunction m) (encBlock m n b) (m.key n) := by
  simp [encBlock, keySchedule_succ, feistelEnc]

theorem decBlock_succ (m : Memory) (n : Nat) (b : Block) :
    decBlock m (n + 1) b = decBlock m n (decRound (roundFunction m) b (m.key n)) := by
  simp [decBlock, keySchedule_succ, feistelDec]

@[simp] theorem encBlock_zero (m : Memory) (b : Block) : encBlock m 0 b = b := rfl
@[simp] theorem decBlock_zero (m : Memory) (b : Block) : decBlock m 0 b = b := rfl

theorem decBlock_encBlock (m : Memory) (n : Nat) (b : Block) : decBlock m n (encBlock m n b) = b :=
  feistelDec_feistelEnc ..

theorem encBlock_decBlock (m : Memory) (n : Nat) (b : Block) : encBlock m n (decBlock m n b) = b :=
  feistelEnc_feistelDec ..

/-! ### What the engine reads -/

theorem byteOf_toNat_lt (w : Word) (i : Nat) : (byteOf w i).toNat < 256 := (byteOf w i).isLt

/-- The round function reads the S-box RAM only. -/
theorem roundFunction_congr {m m' : Memory} (h : ∀ a, a < 0x1000 → m.byte a = m'.byte a) :
    roundFunction m = roundFunction m' := by
  have key : ∀ t, t < 4 → ∀ e, e < 256 → m.sbox t e = m'.sbox t e := by
    intro t ht e he
    refine word_congr fun i hi => h _ ?_
    unfold sboxAddr
    omega
  funext k d
  simp only [roundFunction]
  rw [key 0 (by omega) _ (byteOf_toNat_lt ..), key 1 (by omega) _ (byteOf_toNat_lt ..),
    key 2 (by omega) _ (byteOf_toNat_lt ..), key 3 (by omega) _ (byteOf_toNat_lt ..)]

/-- The key sequence reads the key RAM only. -/
theorem keySchedule_congr {m m' : Memory} {n : Nat}
    (h : ∀ a, 0x1000 ≤ a → a < 0x1000 + 4 * n → m.byte a = m'.byte a) : keySchedule m n = keySchedule m' n := by
  refine List.map_congr_left fun i hi => word_congr fun j hj => h _ ?_ ?_
  · unfold keyAddr; omega
  · have := List.mem_range.mp hi
    unfold keyAddr; omega

/-- Enc and Dec depend on the S-box and key RAMs only, so the message buffer does not matter. -/
theorem encBlock_congr {m m' : Memory} {n : Nat} (hn : n ≤ 256) (h : ∀ a, a < 0x1400 → m.byte a = m'.byte a) :
    encBlock m n = encBlock m' n := by
  funext b
  unfold encBlock
  rw [roundFunction_congr fun a ha => h a (by omega), keySchedule_congr fun a _ ha => h a (by omega)]

theorem decBlock_congr {m m' : Memory} {n : Nat} (hn : n ≤ 256) (h : ∀ a, a < 0x1400 → m.byte a = m'.byte a) :
    decBlock m n = decBlock m' n := by
  funext b
  unfold decBlock
  rw [roundFunction_congr fun a ha => h a (by omega), keySchedule_congr fun a _ ha => h a (by omega)]

end Machine

end Sys2Proof
end

