-- ==== Sys2Proof/Laws/Cbc.lean ====
section
/-! SUPPORT. The laws of the CBC loops over the message buffer, of the padding, and of the validator. -/

namespace Sys2Proof.Machine

/-! ### The lists of R163 and R164 -/

@[simp] theorem cbcCiphertext_length (enc : Block → Block) (prev : Block) (l : List Block) :
    (cbcCiphertext enc prev l).length = l.length := by
  induction l generalizing prev with
  | nil => rfl
  | cons p rest ih => simp [cbcCiphertext, ih]

/-- Decode chaining undoes encode chaining, for a decoder that undoes the encoder. -/
theorem cbcPlaintext_cbcCiphertext {enc dec : Block → Block} (h : ∀ b, dec (enc b) = b) (prev : Block)
    (l : List Block) : cbcPlaintext dec prev (cbcCiphertext enc prev l) = l := by
  induction l generalizing prev with
  | nil => rfl
  | cons p rest ih => simp [cbcCiphertext, cbcPlaintext, h, ih]

/-! ### The encode loop -/

@[simp] theorem encryptBlocks_ramEpoch (enc : Block → Block) (k b : Nat) (m : Memory) (prev : Block) :
    (encryptBlocks enc k b m prev).1.ramEpoch = m.ramEpoch := by
  induction k generalizing b m prev with
  | zero => rfl
  | succ k ih => simp [encryptBlocks, ih]

@[simp] theorem encryptBlocks_msgEpoch (enc : Block → Block) (k b : Nat) (m : Memory) (prev : Block) :
    (encryptBlocks enc k b m prev).1.msgEpoch = m.msgEpoch := by
  induction k generalizing b m prev with
  | zero => rfl
  | succ k ih => simp [encryptBlocks, ih]

/-- The loop touches blocks `b .. b+k-1` only (R69). -/
theorem byte_encryptBlocks_outside (enc : Block → Block) (k b : Nat) (m : Memory) (prev : Block) {x : Nat}
    (hx : x < msgAddr (8 * b) ∨ msgAddr (8 * (b + k)) ≤ x) : (encryptBlocks enc k b m prev).1.byte x = m.byte x := by
  induction k generalizing b m prev with
  | zero => rfl
  | succ k ih =>
    simp only [encryptBlocks]
    rw [ih _ _ _ (by unfold msgAddr at *; omega), byte_setBlock, if_neg (by unfold msgAddr at *; omega)]

theorem block_encryptBlocks_outside (enc : Block → Block) (k b : Nat) (m : Memory) (prev : Block) {c : Nat}
    (hc : c < b ∨ b + k ≤ c) : (encryptBlocks enc k b m prev).1.block c = m.block c := by
  refine block_ext fun j hj => ?_
  rw [byte_block _ _ _ hj, byte_block _ _ _ hj]
  exact byte_encryptBlocks_outside _ _ _ _ _ (by unfold msgAddr; omega)

/-- The loop computes the ciphertext of R163, in place. -/
theorem encryptBlocks_blocks (enc : Block → Block) (k b : Nat) (m : Memory) (prev : Block) :
    (List.range' b k).map (encryptBlocks enc k b m prev).1.block
      = cbcCiphertext enc prev ((List.range' b k).map m.block) := by
  induction k generalizing b m prev with
  | zero => rfl
  | succ k ih =>
    simp only [encryptBlocks, List.range'_succ, List.map_cons, cbcCiphertext]
    have rest : ∀ v : Block, (List.range' (b + 1) k).map (m.setBlock b v).block = (List.range' (b + 1) k).map m.block :=
      fun v => List.map_congr_left fun i hi => block_setBlock_other _ _ (by have := (List.mem_range'_1.mp hi).1; omega)
    rw [ih, rest, block_encryptBlocks_outside _ _ _ _ _ (Or.inl (Nat.lt_succ_self b)), block_setBlock_same]

/-- The last feedback of the encode loop is the last ciphertext block, or the first feedback if there is none. -/
theorem encryptBlocks_prev (enc : Block → Block) (k b : Nat) (m : Memory) (prev : Block) :
    (encryptBlocks enc k b m prev).2
      = if k = 0 then prev else (encryptBlocks enc k b m prev).1.block (b + k - 1) := by
  induction k generalizing b m prev with
  | zero => rfl
  | succ k ih =>
    simp only [encryptBlocks]
    rw [ih, if_neg (Nat.succ_ne_zero k)]
    split
    · subst_vars
      simp [encryptBlocks]
    · congr 1
      omega

/-- Block by block: each ciphertext block is the encoding of the plaintext block XOR the one before it (R163). -/
theorem block_encryptBlocks (enc : Block → Block) (k b : Nat) (m : Memory) (prev : Block) {c : Nat} (hb : b ≤ c)
    (hc : c < b + k) :
    (encryptBlocks enc k b m prev).1.block c
      = enc ((m.block c).xor (if c = b then prev else (encryptBlocks enc k b m prev).1.block (c - 1))) := by
  induction k generalizing b m prev with
  | zero => omega
  | succ k ih =>
    simp only [encryptBlocks]
    by_cases h : c = b
    · subst h
      rw [block_encryptBlocks_outside _ _ _ _ _ (Or.inl (Nat.lt_succ_self c)), block_setBlock_same, if_pos rfl]
    · rw [ih _ _ _ (by omega) (by omega), block_setBlock_other _ _ h, if_neg h]
      split
      · rename_i hcb
        rw [hcb, show b + 1 - 1 = b by omega, block_encryptBlocks_outside _ _ _ _ _ (Or.inl (Nat.lt_succ_self b)),
          block_setBlock_same]
      · rfl

theorem encryptBlocks_wf {p : Params} (enc : Block → Block) (k b : Nat) {m : Memory} (prev : Block) (h : m.wf p)
    (hk : 8 * (b + k) ≤ p.msgBytes) : (encryptBlocks enc k b m prev).1.wf p := by
  induction k generalizing b m prev with
  | zero => exact h
  | succ k ih => exact ih _ _ (setBlock_wf _ h (by omega)) (by omega)

/-! ### The decode loop -/

@[simp] theorem decryptBlocks_ramEpoch (dec : Block → Block) (k b : Nat) (m : Memory) (prev : Block) :
    (decryptBlocks dec k b m prev).1.ramEpoch = m.ramEpoch := by
  induction k generalizing b m prev with
  | zero => rfl
  | succ k ih => simp [decryptBlocks, ih]

@[simp] theorem decryptBlocks_msgEpoch (dec : Block → Block) (k b : Nat) (m : Memory) (prev : Block) :
    (decryptBlocks dec k b m prev).1.msgEpoch = m.msgEpoch := by
  induction k generalizing b m prev with
  | zero => rfl
  | succ k ih => simp [decryptBlocks, ih]

/-- The loop touches blocks `b .. b+k-1` only (R69). -/
theorem byte_decryptBlocks_outside (dec : Block → Block) (k b : Nat) (m : Memory) (prev : Block) {x : Nat}
    (hx : x < msgAddr (8 * b) ∨ msgAddr (8 * (b + k)) ≤ x) : (decryptBlocks dec k b m prev).1.byte x = m.byte x := by
  induction k generalizing b m prev with
  | zero => rfl
  | succ k ih =>
    simp only [decryptBlocks]
    rw [ih _ _ _ (by unfold msgAddr at *; omega), byte_setBlock, if_neg (by unfold msgAddr at *; omega)]

theorem block_decryptBlocks_outside (dec : Block → Block) (k b : Nat) (m : Memory) (prev : Block) {c : Nat}
    (hc : c < b ∨ b + k ≤ c) : (decryptBlocks dec k b m prev).1.block c = m.block c := by
  refine block_ext fun j hj => ?_
  rw [byte_block _ _ _ hj, byte_block _ _ _ hj]
  exact byte_decryptBlocks_outside _ _ _ _ _ (by unfold msgAddr; omega)

/-- Block by block: each block becomes its decoding XOR the ciphertext block that stood before it (R164). -/
theorem block_decryptBlocks (dec : Block → Block) (k b : Nat) (m : Memory) (prev : Block) {c : Nat} (hb : b ≤ c)
    (hc : c < b + k) :
    (decryptBlocks dec k b m prev).1.block c
      = (dec (m.block c)).xor (if c = b then prev else m.block (c - 1)) := by
  induction k generalizing b m prev with
  | zero => omega
  | succ k ih =>
    simp only [decryptBlocks]
    by_cases h : c = b
    · subst h
      rw [block_decryptBlocks_outside _ _ _ _ _ (Or.inl (Nat.lt_succ_self c)), block_setBlock_same, if_pos rfl]
    · rw [ih _ _ _ (by omega) (by omega), block_setBlock_other _ _ h, if_neg h]
      split
      · rename_i hcb
        rw [hcb, show b + 1 - 1 = b by omega]
      · rw [block_setBlock_other _ _ (by omega)]

/-- The last feedback of the decode loop is the last ciphertext block, or the first feedback if there is none. -/
theorem decryptBlocks_prev (dec : Block → Block) (k b : Nat) (m : Memory) (prev : Block) :
    (decryptBlocks dec k b m prev).2 = if k = 0 then prev else m.block (b + k - 1) := by
  induction k generalizing b m prev with
  | zero => rfl
  | succ k ih =>
    simp only [decryptBlocks]
    rw [ih, if_neg (Nat.succ_ne_zero k)]
    split
    · subst_vars
      rfl
    · rw [block_setBlock_other _ _ (by omega)]
      congr 1
      omega

theorem decryptBlocks_wf {p : Params} (dec : Block → Block) (k b : Nat) {m : Memory} (prev : Block) (h : m.wf p)
    (hk : 8 * (b + k) ≤ p.msgBytes) : (decryptBlocks dec k b m prev).1.wf p := by
  induction k generalizing b m prev with
  | zero => exact h
  | succ k ih => exact ih _ _ (setBlock_wf _ h (by omega)) (by omega)

/-! ### Padding -/

/-- The padding length is in 1..8 (R160). -/
theorem padLen_bounds (n : Nat) : 1 ≤ padLen n ∧ padLen n ≤ 8 := by
  unfold padLen
  omega

/-- The padded length is a whole number of blocks (R161). -/
theorem padLen_blocks (n : Nat) : 8 * ((n + padLen n) / 8) = n + padLen n := by
  unfold padLen
  omega

theorem padLen_count (n : Nat) : (n + padLen n) / 8 = n / 8 + 1 := by
  unfold padLen
  omega

/-- The padded message fits the buffer exactly when the plaintext is shorter than it (R170). -/
theorem padLen_fits {p : Params} (hp : p.msgBytes % 8 = 0) {n : Nat} : n + padLen n ≤ p.msgBytes ↔ n < p.msgBytes := by
  unfold padLen
  omega

/-! ### The validator -/

/-- What `validPadding` decides, in the words of R191. -/
theorem validPadding_iff (p : Block) :
    validPadding p = true ↔ 1 ≤ (p.byte 7).toNat ∧ (p.byte 7).toNat ≤ 8
      ∧ ∀ j, 8 - (p.byte 7).toNat ≤ j → j < 8 → p.byte j = p.byte 7 := by
  unfold validPadding
  simp only [Bool.and_eq_true, decide_eq_true_eq, List.all_eq_true, List.mem_range'_1, beq_iff_eq, and_assoc]
  constructor
  · rintro ⟨h1, h2, h3⟩
    exact ⟨h1, h2, fun j hj hj8 => h3 j ⟨hj, by omega⟩⟩
  · rintro ⟨h1, h2, h3⟩
    exact ⟨h1, h2, fun j hj => h3 j hj.1 (by omega)⟩

end Sys2Proof.Machine
end

