-- ==== Sys2Proof/Laws/Decode.lean ====
section
/-! SUPPORT. The laws of the command word: what its fields are, and what the decoder and the encoder say of them. -/

namespace Sys2Proof

/-! ### The fields of a command word as numbers -/

theorem opField_eq (w : Word) : opField w = w.toNat % 16 := by
  simp [opField]

theorem lowReservedField_eq (w : Word) : lowReservedField w = w.toNat / 32 % 8 := by
  simp [lowReservedField, Nat.shiftRight_eq_div_pow]

theorem kidxField_eq (w : Word) : kidxField w = w.toNat / 256 % 256 := by
  simp [kidxField, Nat.shiftRight_eq_div_pow]

theorem highReservedField_eq (w : Word) : highReservedField w = w.toNat / 65536 := by
  have := w.isLt
  simp [highReservedField, Nat.shiftRight_eq_div_pow]
  omega

theorem sField_eq (w : Word) : sField w = decide (w.toNat / 16 % 2 = 1) := by
  simp [sField, BitVec.getLsbD, Nat.testBit, Nat.shiftRight_eq_div_pow]
  rcases Nat.mod_two_eq_zero_or_one (w.toNat / 16) with h | h <;> simp [h]

/-- The OP field, as bits and as a number. -/
theorem extractLsb'_opField (w : Word) (n : BitVec 4) : w.extractLsb' 0 4 = n ↔ opField w = n.toNat := by
  unfold opField
  exact ⟨fun h => by rw [h], fun h => BitVec.eq_of_toNat_eq h⟩

/-- A command word as a number. -/
theorem commandWord_toNat (op : BitVec 4) (s : Bool) (k : BitVec 8) :
    (commandWord op s k).toNat = op.toNat + 16 * s.toNat + 256 * k.toNat := by
  have hop := op.isLt
  have hs : s.toNat < 2 := by cases s <;> decide
  unfold commandWord
  simp only [BitVec.toNat_append, BitVec.toNat_ofBool, BitVec.toNat_ofNat]
  rw [← Nat.shiftLeft_add_eq_or_of_lt (by simpa using hop), ← Nat.shiftLeft_add_eq_or_of_lt (by simpa using hs),
    ← Nat.shiftLeft_add_eq_or_of_lt (by decide), ← Nat.shiftLeft_add_eq_or_of_lt (by simpa using k.isLt)]
  simp only [Nat.shiftLeft_eq]
  omega

/-! ### Taking a built word apart, and building a word from its parts -/

@[simp] theorem opField_commandWord (op : BitVec 4) (s : Bool) (k : BitVec 8) :
    opField (commandWord op s k) = op.toNat := by
  have := op.isLt
  rw [opField_eq, commandWord_toNat]
  omega

@[simp] theorem sField_commandWord (op : BitVec 4) (s : Bool) (k : BitVec 8) :
    sField (commandWord op s k) = s := by
  have := op.isLt
  rw [sField_eq, commandWord_toNat]
  cases s <;> simp <;> omega

@[simp] theorem kidxField_commandWord (op : BitVec 4) (s : Bool) (k : BitVec 8) :
    kidxField (commandWord op s k) = k.toNat := by
  have := op.isLt
  have := k.isLt
  have : s.toNat < 2 := by cases s <;> decide
  rw [kidxField_eq, commandWord_toNat]
  omega

@[simp] theorem lowReservedField_commandWord (op : BitVec 4) (s : Bool) (k : BitVec 8) :
    lowReservedField (commandWord op s k) = 0 := by
  have := op.isLt
  have : s.toNat < 2 := by cases s <;> decide
  rw [lowReservedField_eq, commandWord_toNat]
  omega

@[simp] theorem highReservedField_commandWord (op : BitVec 4) (s : Bool) (k : BitVec 8) :
    highReservedField (commandWord op s k) = 0 := by
  have := op.isLt
  have := k.isLt
  have : s.toNat < 2 := by cases s <;> decide
  rw [highReservedField_eq, commandWord_toNat]
  omega

/-- A word whose reserved fields are zero is built from its other three fields. -/
theorem commandWord_of_fields {w : Word} (hh : highReservedField w = 0) (hl : lowReservedField w = 0) :
    commandWord (BitVec.ofNat 4 (opField w)) (sField w) (BitVec.ofNat 8 (kidxField w)) = w := by
  apply BitVec.eq_of_toNat_eq
  have hw := w.isLt
  rw [highReservedField_eq] at hh
  rw [lowReservedField_eq] at hl
  rw [commandWord_toNat, opField_eq, kidxField_eq, sField_eq]
  simp only [BitVec.toNat_ofNat]
  by_cases hs : w.toNat / 16 % 2 = 1 <;> simp [hs] <;> omega

@[simp] theorem feedbackOfS_sOfFeedback (f : Feedback) : feedbackOfS (sOfFeedback f) = f := by cases f <;> rfl

@[simp] theorem sOfFeedback_feedbackOfS (b : Bool) : sOfFeedback (feedbackOfS b) = b := by cases b <;> rfl

/-! ### What the decoder accepts -/

/-- Decoding a built word: only the OP, S and KIDX fields matter. -/
theorem decode_commandWord (op : BitVec 4) (s : Bool) (k : BitVec 8) :
    decode (commandWord op s k) = decodeOp (commandWord op s k) := by
  simp [decode]

/-- A decoded word has zero reserved fields, and its OP field decided the command. -/
theorem decode_ok {w : Word} {i : Instr} (h : decode w = .ok i) :
    highReservedField w = 0 ∧ lowReservedField w = 0 ∧ decodeOp w = .ok i := by
  unfold decode at h
  split at h
  · cases h
  · split at h
    · cases h
    · exact ⟨Classical.not_not.mp ‹_›, Classical.not_not.mp ‹_›, h⟩

theorem decodePlain_ok {w : Word} {i j : Instr} (h : decodePlain w i = .ok j) :
    sField w = false ∧ kidxField w = 0 ∧ j = i := by
  unfold decodePlain at h
  split at h
  · cases h
  · split at h
    · cases h
    · cases h
      exact ⟨by simpa using ‹¬ sField w = true›, Classical.not_not.mp ‹_›, rfl⟩

theorem decodeRfEval_ok {w : Word} {j : Instr} (h : decodeRfEval w = .ok j) :
    sField w = false ∧ j = .rfEval (kidxField w) := by
  unfold decodeRfEval at h
  split at h
  · cases h
  · cases h
    exact ⟨by simpa using ‹¬ sField w = true›, rfl⟩

theorem decodeBlk_ok {w : Word} {c : Feedback → Instr} {j : Instr} (h : decodeBlk w c = .ok j) :
    kidxField w = 0 ∧ j = c (feedbackOfS (sField w)) := by
  unfold decodeBlk at h
  split at h
  · cases h
  · cases h
    exact ⟨Classical.not_not.mp ‹_›, rfl⟩

/-- Everything `decodeOp` can answer, with the fields it answered for. -/
theorem decodeOp_cases {w : Word} {i : Instr} (h : decodeOp w = .ok i) :
    (opField w = 0 ∧ sField w = false ∧ kidxField w = 0 ∧ i = .nop)
      ∨ (opField w = 1 ∧ sField w = false ∧ kidxField w = 0 ∧ i = .ecbEnc)
      ∨ (opField w = 2 ∧ sField w = false ∧ kidxField w = 0 ∧ i = .ecbDec)
      ∨ (opField w = 3 ∧ sField w = false ∧ i = .rfEval (kidxField w))
      ∨ (opField w = 4 ∧ kidxField w = 0 ∧ i = .cbcEncBlk (feedbackOfS (sField w)))
      ∨ (opField w = 5 ∧ kidxField w = 0 ∧ i = .cbcDecBlk (feedbackOfS (sField w)))
      ∨ (opField w = 6 ∧ sField w = false ∧ kidxField w = 0 ∧ i = .padCheck)
      ∨ (opField w = 7 ∧ sField w = false ∧ kidxField w = 0 ∧ i = .cbcEnc)
      ∨ (opField w = 8 ∧ sField w = false ∧ kidxField w = 0 ∧ i = .cbcDecRaw)
      ∨ (opField w = 9 ∧ sField w = false ∧ kidxField w = 0 ∧ i = .cbcDec) := by
  unfold decodeOp at h
  split at h
  · have := decodePlain_ok h
    simp_all
  · have := decodePlain_ok h
    simp_all
  · have := decodePlain_ok h
    simp_all
  · have := decodeRfEval_ok h
    simp_all
  · have := decodeBlk_ok h
    simp_all
  · have := decodeBlk_ok h
    simp_all
  · have := decodePlain_ok h
    simp_all
  · have := decodePlain_ok h
    simp_all
  · have := decodePlain_ok h
    simp_all
  · have := decodePlain_ok h
    simp_all
  · cases h

end Sys2Proof
end

