-- ==== Sys2Proof/Laws/State.lean ====
section
/-! SUPPORT. One lemma per field of State per named update, so that no proof unfolds a record update. -/

namespace Sys2Proof.Machine

@[simp] theorem State.accept_params (w : Word) (s : State) : (s.accept w).params = s.params := rfl
@[simp] theorem State.accept_rstN (w : Word) (s : State) : (s.accept w).rstN = s.rstN := rfl
@[simp] theorem State.accept_ie (w : Word) (s : State) : (s.accept w).ie = s.ie := rfl
@[simp] theorem State.accept_busy (w : Word) (s : State) : (s.accept w).busy = true := rfl
@[simp] theorem State.accept_done (w : Word) (s : State) : (s.accept w).done = false := rfl
@[simp] theorem State.accept_valid (w : Word) (s : State) : (s.accept w).valid = if opField w = 0x6 then false else s.valid := rfl
@[simp] theorem State.accept_werr (w : Word) (s : State) : (s.accept w).werr = s.werr := rfl
@[simp] theorem State.accept_err (w : Word) (s : State) : (s.accept w).err = .none := rfl
@[simp] theorem State.accept_cmd (w : Word) (s : State) : (s.accept w).cmd = w := rfl
@[simp] theorem State.accept_nrounds (w : Word) (s : State) : (s.accept w).nrounds = s.nrounds := rfl
@[simp] theorem State.accept_len (w : Word) (s : State) : (s.accept w).len = s.len := rfl
@[simp] theorem State.accept_outLen (w : Word) (s : State) : (s.accept w).outLen = s.outLen := rfl
@[simp] theorem State.accept_iv (w : Word) (s : State) : (s.accept w).iv = s.iv := rfl
@[simp] theorem State.accept_blkIn (w : Word) (s : State) : (s.accept w).blkIn = s.blkIn := rfl
@[simp] theorem State.accept_blkOut (w : Word) (s : State) : (s.accept w).blkOut = s.blkOut := rfl
@[simp] theorem State.accept_chain (w : Word) (s : State) : (s.accept w).chain = s.chain := rfl
@[simp] theorem State.accept_rfOut (w : Word) (s : State) : (s.accept w).rfOut = s.rfOut := rfl
@[simp] theorem State.accept_mem (w : Word) (s : State) : (s.accept w).mem = s.mem := rfl
@[simp] theorem State.accept_half (w : Word) (s : State) : (s.accept w).half = s.half := rfl
@[simp] theorem State.accept_roundCounter (w : Word) (s : State) : (s.accept w).roundCounter = s.roundCounter := rfl
@[simp] theorem State.accept_blockIndex (w : Word) (s : State) : (s.accept w).blockIndex = s.blockIndex := rfl
@[simp] theorem State.accept_prevLatch (w : Word) (s : State) : (s.accept w).prevLatch = s.prevLatch := rfl
@[simp] theorem State.accept_saveLatch (w : Word) (s : State) : (s.accept w).saveLatch = s.saveLatch := rfl
@[simp] theorem State.accept_snap (w : Word) (s : State) : (s.accept w).snap = s.operands := rfl
@[simp] theorem State.accept_resp (w : Word) (s : State) : (s.accept w).resp = s.resp := rfl
@[simp] theorem State.accept_agenda (w : Word) (s : State) : (s.accept w).agenda = s.agenda := rfl
@[simp] theorem State.accept_freeCount (w : Word) (s : State) : (s.accept w).freeCount = s.freeCount := rfl

@[simp] theorem State.atAcceptance_params (s : State) : (s.atAcceptance).params = s.params := rfl
@[simp] theorem State.atAcceptance_rstN (s : State) : (s.atAcceptance).rstN = s.rstN := rfl
@[simp] theorem State.atAcceptance_ie (s : State) : (s.atAcceptance).ie = s.ie := rfl
@[simp] theorem State.atAcceptance_busy (s : State) : (s.atAcceptance).busy = s.busy := rfl
@[simp] theorem State.atAcceptance_done (s : State) : (s.atAcceptance).done = s.done := rfl
@[simp] theorem State.atAcceptance_valid (s : State) : (s.atAcceptance).valid = s.valid := rfl
@[simp] theorem State.atAcceptance_werr (s : State) : (s.atAcceptance).werr = s.werr := rfl
@[simp] theorem State.atAcceptance_err (s : State) : (s.atAcceptance).err = s.err := rfl
@[simp] theorem State.atAcceptance_cmd (s : State) : (s.atAcceptance).cmd = s.cmd := rfl
@[simp] theorem State.atAcceptance_nrounds (s : State) : (s.atAcceptance).nrounds = s.snap.nrounds := rfl
@[simp] theorem State.atAcceptance_len (s : State) : (s.atAcceptance).len = s.snap.len := rfl
@[simp] theorem State.atAcceptance_outLen (s : State) : (s.atAcceptance).outLen = s.outLen := rfl
@[simp] theorem State.atAcceptance_iv (s : State) : (s.atAcceptance).iv = s.snap.iv := rfl
@[simp] theorem State.atAcceptance_blkIn (s : State) : (s.atAcceptance).blkIn = s.snap.blkIn := rfl
@[simp] theorem State.atAcceptance_blkOut (s : State) : (s.atAcceptance).blkOut = s.blkOut := rfl
@[simp] theorem State.atAcceptance_chain (s : State) : (s.atAcceptance).chain = s.snap.chain := rfl
@[simp] theorem State.atAcceptance_rfOut (s : State) : (s.atAcceptance).rfOut = s.rfOut := rfl
@[simp] theorem State.atAcceptance_mem (s : State) : (s.atAcceptance).mem = s.snap.mem := rfl
@[simp] theorem State.atAcceptance_half (s : State) : (s.atAcceptance).half = s.half := rfl
@[simp] theorem State.atAcceptance_roundCounter (s : State) : (s.atAcceptance).roundCounter = s.roundCounter := rfl
@[simp] theorem State.atAcceptance_blockIndex (s : State) : (s.atAcceptance).blockIndex = s.blockIndex := rfl
@[simp] theorem State.atAcceptance_prevLatch (s : State) : (s.atAcceptance).prevLatch = s.prevLatch := rfl
@[simp] theorem State.atAcceptance_saveLatch (s : State) : (s.atAcceptance).saveLatch = s.saveLatch := rfl
@[simp] theorem State.atAcceptance_snap (s : State) : (s.atAcceptance).snap = s.snap := rfl
@[simp] theorem State.atAcceptance_resp (s : State) : (s.atAcceptance).resp = s.resp := rfl
@[simp] theorem State.atAcceptance_agenda (s : State) : (s.atAcceptance).agenda = s.agenda := rfl
@[simp] theorem State.atAcceptance_freeCount (s : State) : (s.atAcceptance).freeCount = s.freeCount := rfl

@[simp] theorem State.startCommand_params (s : State) : (s.startCommand).params = s.params := rfl
@[simp] theorem State.startCommand_rstN (s : State) : (s.startCommand).rstN = s.rstN := rfl
@[simp] theorem State.startCommand_ie (s : State) : (s.startCommand).ie = s.ie := rfl
@[simp] theorem State.startCommand_busy (s : State) : (s.startCommand).busy = s.busy := rfl
@[simp] theorem State.startCommand_done (s : State) : (s.startCommand).done = s.done := rfl
@[simp] theorem State.startCommand_valid (s : State) : (s.startCommand).valid = s.valid := rfl
@[simp] theorem State.startCommand_werr (s : State) : (s.startCommand).werr = s.werr := rfl
@[simp] theorem State.startCommand_err (s : State) : (s.startCommand).err = s.err := rfl
@[simp] theorem State.startCommand_cmd (s : State) : (s.startCommand).cmd = s.cmd := rfl
@[simp] theorem State.startCommand_nrounds (s : State) : (s.startCommand).nrounds = s.nrounds := rfl
@[simp] theorem State.startCommand_len (s : State) : (s.startCommand).len = s.len := rfl
@[simp] theorem State.startCommand_outLen (s : State) : (s.startCommand).outLen = s.outLen := rfl
@[simp] theorem State.startCommand_iv (s : State) : (s.startCommand).iv = s.iv := rfl
@[simp] theorem State.startCommand_blkIn (s : State) : (s.startCommand).blkIn = s.blkIn := rfl
@[simp] theorem State.startCommand_blkOut (s : State) : (s.startCommand).blkOut = s.blkOut := rfl
@[simp] theorem State.startCommand_chain (s : State) : (s.startCommand).chain = s.chain := rfl
@[simp] theorem State.startCommand_rfOut (s : State) : (s.startCommand).rfOut = s.rfOut := rfl
@[simp] theorem State.startCommand_mem (s : State) : (s.startCommand).mem = s.mem := rfl
@[simp] theorem State.startCommand_half (s : State) : (s.startCommand).half = s.half := rfl
@[simp] theorem State.startCommand_roundCounter (s : State) : (s.startCommand).roundCounter = 0 := rfl
@[simp] theorem State.startCommand_blockIndex (s : State) : (s.startCommand).blockIndex = 0 := rfl
@[simp] theorem State.startCommand_prevLatch (s : State) : (s.startCommand).prevLatch = s.prevLatch := rfl
@[simp] theorem State.startCommand_saveLatch (s : State) : (s.startCommand).saveLatch = s.saveLatch := rfl
@[simp] theorem State.startCommand_snap (s : State) : (s.startCommand).snap = s.snap := rfl
@[simp] theorem State.startCommand_resp (s : State) : (s.startCommand).resp = s.resp := rfl
@[simp] theorem State.startCommand_agenda (s : State) : (s.startCommand).agenda = s.agenda := rfl
@[simp] theorem State.startCommand_freeCount (s : State) : (s.startCommand).freeCount = s.freeCount := rfl

@[simp] theorem State.complete_params (c : ErrCode) (s : State) : (s.complete c).params = s.params := rfl
@[simp] theorem State.complete_rstN (c : ErrCode) (s : State) : (s.complete c).rstN = s.rstN := rfl
@[simp] theorem State.complete_ie (c : ErrCode) (s : State) : (s.complete c).ie = s.ie := rfl
@[simp] theorem State.complete_busy (c : ErrCode) (s : State) : (s.complete c).busy = false := rfl
@[simp] theorem State.complete_done (c : ErrCode) (s : State) : (s.complete c).done = true := rfl
@[simp] theorem State.complete_valid (c : ErrCode) (s : State) : (s.complete c).valid = s.valid := rfl
@[simp] theorem State.complete_werr (c : ErrCode) (s : State) : (s.complete c).werr = s.werr := rfl
@[simp] theorem State.complete_err (c : ErrCode) (s : State) : (s.complete c).err = c := rfl
@[simp] theorem State.complete_cmd (c : ErrCode) (s : State) : (s.complete c).cmd = s.cmd := rfl
@[simp] theorem State.complete_nrounds (c : ErrCode) (s : State) : (s.complete c).nrounds = s.nrounds := rfl
@[simp] theorem State.complete_len (c : ErrCode) (s : State) : (s.complete c).len = s.len := rfl
@[simp] theorem State.complete_outLen (c : ErrCode) (s : State) : (s.complete c).outLen = s.outLen := rfl
@[simp] theorem State.complete_iv (c : ErrCode) (s : State) : (s.complete c).iv = s.iv := rfl
@[simp] theorem State.complete_blkIn (c : ErrCode) (s : State) : (s.complete c).blkIn = s.blkIn := rfl
@[simp] theorem State.complete_blkOut (c : ErrCode) (s : State) : (s.complete c).blkOut = s.blkOut := rfl
@[simp] theorem State.complete_chain (c : ErrCode) (s : State) : (s.complete c).chain = s.chain := rfl
@[simp] theorem State.complete_rfOut (c : ErrCode) (s : State) : (s.complete c).rfOut = s.rfOut := rfl
@[simp] theorem State.complete_mem (c : ErrCode) (s : State) : (s.complete c).mem = s.mem := rfl
@[simp] theorem State.complete_half (c : ErrCode) (s : State) : (s.complete c).half = s.half := rfl
@[simp] theorem State.complete_roundCounter (c : ErrCode) (s : State) : (s.complete c).roundCounter = s.roundCounter := rfl
@[simp] theorem State.complete_blockIndex (c : ErrCode) (s : State) : (s.complete c).blockIndex = s.blockIndex := rfl
@[simp] theorem State.complete_prevLatch (c : ErrCode) (s : State) : (s.complete c).prevLatch = s.prevLatch := rfl
@[simp] theorem State.complete_saveLatch (c : ErrCode) (s : State) : (s.complete c).saveLatch = s.saveLatch := rfl
@[simp] theorem State.complete_snap (c : ErrCode) (s : State) : (s.complete c).snap = s.snap := rfl
@[simp] theorem State.complete_resp (c : ErrCode) (s : State) : (s.complete c).resp = s.resp := rfl
@[simp] theorem State.complete_agenda (c : ErrCode) (s : State) : (s.complete c).agenda = s.agenda := rfl
@[simp] theorem State.complete_freeCount (c : ErrCode) (s : State) : (s.complete c).freeCount = s.freeCount := rfl

@[simp] theorem State.putBlkOut_params (b : Block) (s : State) : (s.putBlkOut b).params = s.params := rfl
@[simp] theorem State.putBlkOut_rstN (b : Block) (s : State) : (s.putBlkOut b).rstN = s.rstN := rfl
@[simp] theorem State.putBlkOut_ie (b : Block) (s : State) : (s.putBlkOut b).ie = s.ie := rfl
@[simp] theorem State.putBlkOut_busy (b : Block) (s : State) : (s.putBlkOut b).busy = s.busy := rfl
@[simp] theorem State.putBlkOut_done (b : Block) (s : State) : (s.putBlkOut b).done = s.done := rfl
@[simp] theorem State.putBlkOut_valid (b : Block) (s : State) : (s.putBlkOut b).valid = s.valid := rfl
@[simp] theorem State.putBlkOut_werr (b : Block) (s : State) : (s.putBlkOut b).werr = s.werr := rfl
@[simp] theorem State.putBlkOut_err (b : Block) (s : State) : (s.putBlkOut b).err = s.err := rfl
@[simp] theorem State.putBlkOut_cmd (b : Block) (s : State) : (s.putBlkOut b).cmd = s.cmd := rfl
@[simp] theorem State.putBlkOut_nrounds (b : Block) (s : State) : (s.putBlkOut b).nrounds = s.nrounds := rfl
@[simp] theorem State.putBlkOut_len (b : Block) (s : State) : (s.putBlkOut b).len = s.len := rfl
@[simp] theorem State.putBlkOut_outLen (b : Block) (s : State) : (s.putBlkOut b).outLen = s.outLen := rfl
@[simp] theorem State.putBlkOut_iv (b : Block) (s : State) : (s.putBlkOut b).iv = s.iv := rfl
@[simp] theorem State.putBlkOut_blkIn (b : Block) (s : State) : (s.putBlkOut b).blkIn = s.blkIn := rfl
@[simp] theorem State.putBlkOut_blkOut (b : Block) (s : State) : (s.putBlkOut b).blkOut = b := rfl
@[simp] theorem State.putBlkOut_chain (b : Block) (s : State) : (s.putBlkOut b).chain = s.chain := rfl
@[simp] theorem State.putBlkOut_rfOut (b : Block) (s : State) : (s.putBlkOut b).rfOut = s.rfOut := rfl
@[simp] theorem State.putBlkOut_mem (b : Block) (s : State) : (s.putBlkOut b).mem = s.mem := rfl
@[simp] theorem State.putBlkOut_half (b : Block) (s : State) : (s.putBlkOut b).half = s.half := rfl
@[simp] theorem State.putBlkOut_roundCounter (b : Block) (s : State) : (s.putBlkOut b).roundCounter = s.roundCounter := rfl
@[simp] theorem State.putBlkOut_blockIndex (b : Block) (s : State) : (s.putBlkOut b).blockIndex = s.blockIndex := rfl
@[simp] theorem State.putBlkOut_prevLatch (b : Block) (s : State) : (s.putBlkOut b).prevLatch = s.prevLatch := rfl
@[simp] theorem State.putBlkOut_saveLatch (b : Block) (s : State) : (s.putBlkOut b).saveLatch = s.saveLatch := rfl
@[simp] theorem State.putBlkOut_snap (b : Block) (s : State) : (s.putBlkOut b).snap = s.snap := rfl
@[simp] theorem State.putBlkOut_resp (b : Block) (s : State) : (s.putBlkOut b).resp = s.resp := rfl
@[simp] theorem State.putBlkOut_agenda (b : Block) (s : State) : (s.putBlkOut b).agenda = s.agenda := rfl
@[simp] theorem State.putBlkOut_freeCount (b : Block) (s : State) : (s.putBlkOut b).freeCount = s.freeCount := rfl

@[simp] theorem State.putChain_params (b : Block) (s : State) : (s.putChain b).params = s.params := rfl
@[simp] theorem State.putChain_rstN (b : Block) (s : State) : (s.putChain b).rstN = s.rstN := rfl
@[simp] theorem State.putChain_ie (b : Block) (s : State) : (s.putChain b).ie = s.ie := rfl
@[simp] theorem State.putChain_busy (b : Block) (s : State) : (s.putChain b).busy = s.busy := rfl
@[simp] theorem State.putChain_done (b : Block) (s : State) : (s.putChain b).done = s.done := rfl
@[simp] theorem State.putChain_valid (b : Block) (s : State) : (s.putChain b).valid = s.valid := rfl
@[simp] theorem State.putChain_werr (b : Block) (s : State) : (s.putChain b).werr = s.werr := rfl
@[simp] theorem State.putChain_err (b : Block) (s : State) : (s.putChain b).err = s.err := rfl
@[simp] theorem State.putChain_cmd (b : Block) (s : State) : (s.putChain b).cmd = s.cmd := rfl
@[simp] theorem State.putChain_nrounds (b : Block) (s : State) : (s.putChain b).nrounds = s.nrounds := rfl
@[simp] theorem State.putChain_len (b : Block) (s : State) : (s.putChain b).len = s.len := rfl
@[simp] theorem State.putChain_outLen (b : Block) (s : State) : (s.putChain b).outLen = s.outLen := rfl
@[simp] theorem State.putChain_iv (b : Block) (s : State) : (s.putChain b).iv = s.iv := rfl
@[simp] theorem State.putChain_blkIn (b : Block) (s : State) : (s.putChain b).blkIn = s.blkIn := rfl
@[simp] theorem State.putChain_blkOut (b : Block) (s : State) : (s.putChain b).blkOut = s.blkOut := rfl
@[simp] theorem State.putChain_chain (b : Block) (s : State) : (s.putChain b).chain = b := rfl
@[simp] theorem State.putChain_rfOut (b : Block) (s : State) : (s.putChain b).rfOut = s.rfOut := rfl
@[simp] theorem State.putChain_mem (b : Block) (s : State) : (s.putChain b).mem = s.mem := rfl
@[simp] theorem State.putChain_half (b : Block) (s : State) : (s.putChain b).half = s.half := rfl
@[simp] theorem State.putChain_roundCounter (b : Block) (s : State) : (s.putChain b).roundCounter = s.roundCounter := rfl
@[simp] theorem State.putChain_blockIndex (b : Block) (s : State) : (s.putChain b).blockIndex = s.blockIndex := rfl
@[simp] theorem State.putChain_prevLatch (b : Block) (s : State) : (s.putChain b).prevLatch = s.prevLatch := rfl
@[simp] theorem State.putChain_saveLatch (b : Block) (s : State) : (s.putChain b).saveLatch = s.saveLatch := rfl
@[simp] theorem State.putChain_snap (b : Block) (s : State) : (s.putChain b).snap = s.snap := rfl
@[simp] theorem State.putChain_resp (b : Block) (s : State) : (s.putChain b).resp = s.resp := rfl
@[simp] theorem State.putChain_agenda (b : Block) (s : State) : (s.putChain b).agenda = s.agenda := rfl
@[simp] theorem State.putChain_freeCount (b : Block) (s : State) : (s.putChain b).freeCount = s.freeCount := rfl

@[simp] theorem State.putRfOut_params (w : Word) (s : State) : (s.putRfOut w).params = s.params := rfl
@[simp] theorem State.putRfOut_rstN (w : Word) (s : State) : (s.putRfOut w).rstN = s.rstN := rfl
@[simp] theorem State.putRfOut_ie (w : Word) (s : State) : (s.putRfOut w).ie = s.ie := rfl
@[simp] theorem State.putRfOut_busy (w : Word) (s : State) : (s.putRfOut w).busy = s.busy := rfl
@[simp] theorem State.putRfOut_done (w : Word) (s : State) : (s.putRfOut w).done = s.done := rfl
@[simp] theorem State.putRfOut_valid (w : Word) (s : State) : (s.putRfOut w).valid = s.valid := rfl
@[simp] theorem State.putRfOut_werr (w : Word) (s : State) : (s.putRfOut w).werr = s.werr := rfl
@[simp] theorem State.putRfOut_err (w : Word) (s : State) : (s.putRfOut w).err = s.err := rfl
@[simp] theorem State.putRfOut_cmd (w : Word) (s : State) : (s.putRfOut w).cmd = s.cmd := rfl
@[simp] theorem State.putRfOut_nrounds (w : Word) (s : State) : (s.putRfOut w).nrounds = s.nrounds := rfl
@[simp] theorem State.putRfOut_len (w : Word) (s : State) : (s.putRfOut w).len = s.len := rfl
@[simp] theorem State.putRfOut_outLen (w : Word) (s : State) : (s.putRfOut w).outLen = s.outLen := rfl
@[simp] theorem State.putRfOut_iv (w : Word) (s : State) : (s.putRfOut w).iv = s.iv := rfl
@[simp] theorem State.putRfOut_blkIn (w : Word) (s : State) : (s.putRfOut w).blkIn = s.blkIn := rfl
@[simp] theorem State.putRfOut_blkOut (w : Word) (s : State) : (s.putRfOut w).blkOut = s.blkOut := rfl
@[simp] theorem State.putRfOut_chain (w : Word) (s : State) : (s.putRfOut w).chain = s.chain := rfl
@[simp] theorem State.putRfOut_rfOut (w : Word) (s : State) : (s.putRfOut w).rfOut = w := rfl
@[simp] theorem State.putRfOut_mem (w : Word) (s : State) : (s.putRfOut w).mem = s.mem := rfl
@[simp] theorem State.putRfOut_half (w : Word) (s : State) : (s.putRfOut w).half = s.half := rfl
@[simp] theorem State.putRfOut_roundCounter (w : Word) (s : State) : (s.putRfOut w).roundCounter = s.roundCounter := rfl
@[simp] theorem State.putRfOut_blockIndex (w : Word) (s : State) : (s.putRfOut w).blockIndex = s.blockIndex := rfl
@[simp] theorem State.putRfOut_prevLatch (w : Word) (s : State) : (s.putRfOut w).prevLatch = s.prevLatch := rfl
@[simp] theorem State.putRfOut_saveLatch (w : Word) (s : State) : (s.putRfOut w).saveLatch = s.saveLatch := rfl
@[simp] theorem State.putRfOut_snap (w : Word) (s : State) : (s.putRfOut w).snap = s.snap := rfl
@[simp] theorem State.putRfOut_resp (w : Word) (s : State) : (s.putRfOut w).resp = s.resp := rfl
@[simp] theorem State.putRfOut_agenda (w : Word) (s : State) : (s.putRfOut w).agenda = s.agenda := rfl
@[simp] theorem State.putRfOut_freeCount (w : Word) (s : State) : (s.putRfOut w).freeCount = s.freeCount := rfl

@[simp] theorem State.putOutLen_params (n : Nat) (s : State) : (s.putOutLen n).params = s.params := rfl
@[simp] theorem State.putOutLen_rstN (n : Nat) (s : State) : (s.putOutLen n).rstN = s.rstN := rfl
@[simp] theorem State.putOutLen_ie (n : Nat) (s : State) : (s.putOutLen n).ie = s.ie := rfl
@[simp] theorem State.putOutLen_busy (n : Nat) (s : State) : (s.putOutLen n).busy = s.busy := rfl
@[simp] theorem State.putOutLen_done (n : Nat) (s : State) : (s.putOutLen n).done = s.done := rfl
@[simp] theorem State.putOutLen_valid (n : Nat) (s : State) : (s.putOutLen n).valid = s.valid := rfl
@[simp] theorem State.putOutLen_werr (n : Nat) (s : State) : (s.putOutLen n).werr = s.werr := rfl
@[simp] theorem State.putOutLen_err (n : Nat) (s : State) : (s.putOutLen n).err = s.err := rfl
@[simp] theorem State.putOutLen_cmd (n : Nat) (s : State) : (s.putOutLen n).cmd = s.cmd := rfl
@[simp] theorem State.putOutLen_nrounds (n : Nat) (s : State) : (s.putOutLen n).nrounds = s.nrounds := rfl
@[simp] theorem State.putOutLen_len (n : Nat) (s : State) : (s.putOutLen n).len = s.len := rfl
@[simp] theorem State.putOutLen_outLen (n : Nat) (s : State) : (s.putOutLen n).outLen = BitVec.ofNat 14 n := rfl
@[simp] theorem State.putOutLen_iv (n : Nat) (s : State) : (s.putOutLen n).iv = s.iv := rfl
@[simp] theorem State.putOutLen_blkIn (n : Nat) (s : State) : (s.putOutLen n).blkIn = s.blkIn := rfl
@[simp] theorem State.putOutLen_blkOut (n : Nat) (s : State) : (s.putOutLen n).blkOut = s.blkOut := rfl
@[simp] theorem State.putOutLen_chain (n : Nat) (s : State) : (s.putOutLen n).chain = s.chain := rfl
@[simp] theorem State.putOutLen_rfOut (n : Nat) (s : State) : (s.putOutLen n).rfOut = s.rfOut := rfl
@[simp] theorem State.putOutLen_mem (n : Nat) (s : State) : (s.putOutLen n).mem = s.mem := rfl
@[simp] theorem State.putOutLen_half (n : Nat) (s : State) : (s.putOutLen n).half = s.half := rfl
@[simp] theorem State.putOutLen_roundCounter (n : Nat) (s : State) : (s.putOutLen n).roundCounter = s.roundCounter := rfl
@[simp] theorem State.putOutLen_blockIndex (n : Nat) (s : State) : (s.putOutLen n).blockIndex = s.blockIndex := rfl
@[simp] theorem State.putOutLen_prevLatch (n : Nat) (s : State) : (s.putOutLen n).prevLatch = s.prevLatch := rfl
@[simp] theorem State.putOutLen_saveLatch (n : Nat) (s : State) : (s.putOutLen n).saveLatch = s.saveLatch := rfl
@[simp] theorem State.putOutLen_snap (n : Nat) (s : State) : (s.putOutLen n).snap = s.snap := rfl
@[simp] theorem State.putOutLen_resp (n : Nat) (s : State) : (s.putOutLen n).resp = s.resp := rfl
@[simp] theorem State.putOutLen_agenda (n : Nat) (s : State) : (s.putOutLen n).agenda = s.agenda := rfl
@[simp] theorem State.putOutLen_freeCount (n : Nat) (s : State) : (s.putOutLen n).freeCount = s.freeCount := rfl

@[simp] theorem State.putValid_params (v : Bool) (s : State) : (s.putValid v).params = s.params := rfl
@[simp] theorem State.putValid_rstN (v : Bool) (s : State) : (s.putValid v).rstN = s.rstN := rfl
@[simp] theorem State.putValid_ie (v : Bool) (s : State) : (s.putValid v).ie = s.ie := rfl
@[simp] theorem State.putValid_busy (v : Bool) (s : State) : (s.putValid v).busy = s.busy := rfl
@[simp] theorem State.putValid_done (v : Bool) (s : State) : (s.putValid v).done = s.done := rfl
@[simp] theorem State.putValid_valid (v : Bool) (s : State) : (s.putValid v).valid = v := rfl
@[simp] theorem State.putValid_werr (v : Bool) (s : State) : (s.putValid v).werr = s.werr := rfl
@[simp] theorem State.putValid_err (v : Bool) (s : State) : (s.putValid v).err = s.err := rfl
@[simp] theorem State.putValid_cmd (v : Bool) (s : State) : (s.putValid v).cmd = s.cmd := rfl
@[simp] theorem State.putValid_nrounds (v : Bool) (s : State) : (s.putValid v).nrounds = s.nrounds := rfl
@[simp] theorem State.putValid_len (v : Bool) (s : State) : (s.putValid v).len = s.len := rfl
@[simp] theorem State.putValid_outLen (v : Bool) (s : State) : (s.putValid v).outLen = s.outLen := rfl
@[simp] theorem State.putValid_iv (v : Bool) (s : State) : (s.putValid v).iv = s.iv := rfl
@[simp] theorem State.putValid_blkIn (v : Bool) (s : State) : (s.putValid v).blkIn = s.blkIn := rfl
@[simp] theorem State.putValid_blkOut (v : Bool) (s : State) : (s.putValid v).blkOut = s.blkOut := rfl
@[simp] theorem State.putValid_chain (v : Bool) (s : State) : (s.putValid v).chain = s.chain := rfl
@[simp] theorem State.putValid_rfOut (v : Bool) (s : State) : (s.putValid v).rfOut = s.rfOut := rfl
@[simp] theorem State.putValid_mem (v : Bool) (s : State) : (s.putValid v).mem = s.mem := rfl
@[simp] theorem State.putValid_half (v : Bool) (s : State) : (s.putValid v).half = s.half := rfl
@[simp] theorem State.putValid_roundCounter (v : Bool) (s : State) : (s.putValid v).roundCounter = s.roundCounter := rfl
@[simp] theorem State.putValid_blockIndex (v : Bool) (s : State) : (s.putValid v).blockIndex = s.blockIndex := rfl
@[simp] theorem State.putValid_prevLatch (v : Bool) (s : State) : (s.putValid v).prevLatch = s.prevLatch := rfl
@[simp] theorem State.putValid_saveLatch (v : Bool) (s : State) : (s.putValid v).saveLatch = s.saveLatch := rfl
@[simp] theorem State.putValid_snap (v : Bool) (s : State) : (s.putValid v).snap = s.snap := rfl
@[simp] theorem State.putValid_resp (v : Bool) (s : State) : (s.putValid v).resp = s.resp := rfl
@[simp] theorem State.putValid_agenda (v : Bool) (s : State) : (s.putValid v).agenda = s.agenda := rfl
@[simp] theorem State.putValid_freeCount (v : Bool) (s : State) : (s.putValid v).freeCount = s.freeCount := rfl

@[simp] theorem State.putMem_params (m : Memory) (s : State) : (s.putMem m).params = s.params := rfl
@[simp] theorem State.putMem_rstN (m : Memory) (s : State) : (s.putMem m).rstN = s.rstN := rfl
@[simp] theorem State.putMem_ie (m : Memory) (s : State) : (s.putMem m).ie = s.ie := rfl
@[simp] theorem State.putMem_busy (m : Memory) (s : State) : (s.putMem m).busy = s.busy := rfl
@[simp] theorem State.putMem_done (m : Memory) (s : State) : (s.putMem m).done = s.done := rfl
@[simp] theorem State.putMem_valid (m : Memory) (s : State) : (s.putMem m).valid = s.valid := rfl
@[simp] theorem State.putMem_werr (m : Memory) (s : State) : (s.putMem m).werr = s.werr := rfl
@[simp] theorem State.putMem_err (m : Memory) (s : State) : (s.putMem m).err = s.err := rfl
@[simp] theorem State.putMem_cmd (m : Memory) (s : State) : (s.putMem m).cmd = s.cmd := rfl
@[simp] theorem State.putMem_nrounds (m : Memory) (s : State) : (s.putMem m).nrounds = s.nrounds := rfl
@[simp] theorem State.putMem_len (m : Memory) (s : State) : (s.putMem m).len = s.len := rfl
@[simp] theorem State.putMem_outLen (m : Memory) (s : State) : (s.putMem m).outLen = s.outLen := rfl
@[simp] theorem State.putMem_iv (m : Memory) (s : State) : (s.putMem m).iv = s.iv := rfl
@[simp] theorem State.putMem_blkIn (m : Memory) (s : State) : (s.putMem m).blkIn = s.blkIn := rfl
@[simp] theorem State.putMem_blkOut (m : Memory) (s : State) : (s.putMem m).blkOut = s.blkOut := rfl
@[simp] theorem State.putMem_chain (m : Memory) (s : State) : (s.putMem m).chain = s.chain := rfl
@[simp] theorem State.putMem_rfOut (m : Memory) (s : State) : (s.putMem m).rfOut = s.rfOut := rfl
@[simp] theorem State.putMem_mem (m : Memory) (s : State) : (s.putMem m).mem = m := rfl
@[simp] theorem State.putMem_half (m : Memory) (s : State) : (s.putMem m).half = s.half := rfl
@[simp] theorem State.putMem_roundCounter (m : Memory) (s : State) : (s.putMem m).roundCounter = s.roundCounter := rfl
@[simp] theorem State.putMem_blockIndex (m : Memory) (s : State) : (s.putMem m).blockIndex = s.blockIndex := rfl
@[simp] theorem State.putMem_prevLatch (m : Memory) (s : State) : (s.putMem m).prevLatch = s.prevLatch := rfl
@[simp] theorem State.putMem_saveLatch (m : Memory) (s : State) : (s.putMem m).saveLatch = s.saveLatch := rfl
@[simp] theorem State.putMem_snap (m : Memory) (s : State) : (s.putMem m).snap = s.snap := rfl
@[simp] theorem State.putMem_resp (m : Memory) (s : State) : (s.putMem m).resp = s.resp := rfl
@[simp] theorem State.putMem_agenda (m : Memory) (s : State) : (s.putMem m).agenda = s.agenda := rfl
@[simp] theorem State.putMem_freeCount (m : Memory) (s : State) : (s.putMem m).freeCount = s.freeCount := rfl

@[simp] theorem State.putFeistel_params (b : Block) (i : Nat) (s : State) : (s.putFeistel b i).params = s.params := rfl
@[simp] theorem State.putFeistel_rstN (b : Block) (i : Nat) (s : State) : (s.putFeistel b i).rstN = s.rstN := rfl
@[simp] theorem State.putFeistel_ie (b : Block) (i : Nat) (s : State) : (s.putFeistel b i).ie = s.ie := rfl
@[simp] theorem State.putFeistel_busy (b : Block) (i : Nat) (s : State) : (s.putFeistel b i).busy = s.busy := rfl
@[simp] theorem State.putFeistel_done (b : Block) (i : Nat) (s : State) : (s.putFeistel b i).done = s.done := rfl
@[simp] theorem State.putFeistel_valid (b : Block) (i : Nat) (s : State) : (s.putFeistel b i).valid = s.valid := rfl
@[simp] theorem State.putFeistel_werr (b : Block) (i : Nat) (s : State) : (s.putFeistel b i).werr = s.werr := rfl
@[simp] theorem State.putFeistel_err (b : Block) (i : Nat) (s : State) : (s.putFeistel b i).err = s.err := rfl
@[simp] theorem State.putFeistel_cmd (b : Block) (i : Nat) (s : State) : (s.putFeistel b i).cmd = s.cmd := rfl
@[simp] theorem State.putFeistel_nrounds (b : Block) (i : Nat) (s : State) : (s.putFeistel b i).nrounds = s.nrounds := rfl
@[simp] theorem State.putFeistel_len (b : Block) (i : Nat) (s : State) : (s.putFeistel b i).len = s.len := rfl
@[simp] theorem State.putFeistel_outLen (b : Block) (i : Nat) (s : State) : (s.putFeistel b i).outLen = s.outLen := rfl
@[simp] theorem State.putFeistel_iv (b : Block) (i : Nat) (s : State) : (s.putFeistel b i).iv = s.iv := rfl
@[simp] theorem State.putFeistel_blkIn (b : Block) (i : Nat) (s : State) : (s.putFeistel b i).blkIn = s.blkIn := rfl
@[simp] theorem State.putFeistel_blkOut (b : Block) (i : Nat) (s : State) : (s.putFeistel b i).blkOut = s.blkOut := rfl
@[simp] theorem State.putFeistel_chain (b : Block) (i : Nat) (s : State) : (s.putFeistel b i).chain = s.chain := rfl
@[simp] theorem State.putFeistel_rfOut (b : Block) (i : Nat) (s : State) : (s.putFeistel b i).rfOut = s.rfOut := rfl
@[simp] theorem State.putFeistel_mem (b : Block) (i : Nat) (s : State) : (s.putFeistel b i).mem = s.mem := rfl
@[simp] theorem State.putFeistel_half (b : Block) (i : Nat) (s : State) : (s.putFeistel b i).half = b := rfl
@[simp] theorem State.putFeistel_roundCounter (b : Block) (i : Nat) (s : State) : (s.putFeistel b i).roundCounter = i := rfl
@[simp] theorem State.putFeistel_blockIndex (b : Block) (i : Nat) (s : State) : (s.putFeistel b i).blockIndex = s.blockIndex := rfl
@[simp] theorem State.putFeistel_prevLatch (b : Block) (i : Nat) (s : State) : (s.putFeistel b i).prevLatch = s.prevLatch := rfl
@[simp] theorem State.putFeistel_saveLatch (b : Block) (i : Nat) (s : State) : (s.putFeistel b i).saveLatch = s.saveLatch := rfl
@[simp] theorem State.putFeistel_snap (b : Block) (i : Nat) (s : State) : (s.putFeistel b i).snap = s.snap := rfl
@[simp] theorem State.putFeistel_resp (b : Block) (i : Nat) (s : State) : (s.putFeistel b i).resp = s.resp := rfl
@[simp] theorem State.putFeistel_agenda (b : Block) (i : Nat) (s : State) : (s.putFeistel b i).agenda = s.agenda := rfl
@[simp] theorem State.putFeistel_freeCount (b : Block) (i : Nat) (s : State) : (s.putFeistel b i).freeCount = s.freeCount := rfl

@[simp] theorem State.putCbc_params (i : Nat) (b : Block) (s : State) : (s.putCbc i b).params = s.params := rfl
@[simp] theorem State.putCbc_rstN (i : Nat) (b : Block) (s : State) : (s.putCbc i b).rstN = s.rstN := rfl
@[simp] theorem State.putCbc_ie (i : Nat) (b : Block) (s : State) : (s.putCbc i b).ie = s.ie := rfl
@[simp] theorem State.putCbc_busy (i : Nat) (b : Block) (s : State) : (s.putCbc i b).busy = s.busy := rfl
@[simp] theorem State.putCbc_done (i : Nat) (b : Block) (s : State) : (s.putCbc i b).done = s.done := rfl
@[simp] theorem State.putCbc_valid (i : Nat) (b : Block) (s : State) : (s.putCbc i b).valid = s.valid := rfl
@[simp] theorem State.putCbc_werr (i : Nat) (b : Block) (s : State) : (s.putCbc i b).werr = s.werr := rfl
@[simp] theorem State.putCbc_err (i : Nat) (b : Block) (s : State) : (s.putCbc i b).err = s.err := rfl
@[simp] theorem State.putCbc_cmd (i : Nat) (b : Block) (s : State) : (s.putCbc i b).cmd = s.cmd := rfl
@[simp] theorem State.putCbc_nrounds (i : Nat) (b : Block) (s : State) : (s.putCbc i b).nrounds = s.nrounds := rfl
@[simp] theorem State.putCbc_len (i : Nat) (b : Block) (s : State) : (s.putCbc i b).len = s.len := rfl
@[simp] theorem State.putCbc_outLen (i : Nat) (b : Block) (s : State) : (s.putCbc i b).outLen = s.outLen := rfl
@[simp] theorem State.putCbc_iv (i : Nat) (b : Block) (s : State) : (s.putCbc i b).iv = s.iv := rfl
@[simp] theorem State.putCbc_blkIn (i : Nat) (b : Block) (s : State) : (s.putCbc i b).blkIn = s.blkIn := rfl
@[simp] theorem State.putCbc_blkOut (i : Nat) (b : Block) (s : State) : (s.putCbc i b).blkOut = s.blkOut := rfl
@[simp] theorem State.putCbc_chain (i : Nat) (b : Block) (s : State) : (s.putCbc i b).chain = s.chain := rfl
@[simp] theorem State.putCbc_rfOut (i : Nat) (b : Block) (s : State) : (s.putCbc i b).rfOut = s.rfOut := rfl
@[simp] theorem State.putCbc_mem (i : Nat) (b : Block) (s : State) : (s.putCbc i b).mem = s.mem := rfl
@[simp] theorem State.putCbc_half (i : Nat) (b : Block) (s : State) : (s.putCbc i b).half = s.half := rfl
@[simp] theorem State.putCbc_roundCounter (i : Nat) (b : Block) (s : State) : (s.putCbc i b).roundCounter = s.roundCounter := rfl
@[simp] theorem State.putCbc_blockIndex (i : Nat) (b : Block) (s : State) : (s.putCbc i b).blockIndex = i := rfl
@[simp] theorem State.putCbc_prevLatch (i : Nat) (b : Block) (s : State) : (s.putCbc i b).prevLatch = b := rfl
@[simp] theorem State.putCbc_saveLatch (i : Nat) (b : Block) (s : State) : (s.putCbc i b).saveLatch = s.saveLatch := rfl
@[simp] theorem State.putCbc_snap (i : Nat) (b : Block) (s : State) : (s.putCbc i b).snap = s.snap := rfl
@[simp] theorem State.putCbc_resp (i : Nat) (b : Block) (s : State) : (s.putCbc i b).resp = s.resp := rfl
@[simp] theorem State.putCbc_agenda (i : Nat) (b : Block) (s : State) : (s.putCbc i b).agenda = s.agenda := rfl
@[simp] theorem State.putCbc_freeCount (i : Nat) (b : Block) (s : State) : (s.putCbc i b).freeCount = s.freeCount := rfl

@[simp] theorem State.putSave_params (b : Block) (s : State) : (s.putSave b).params = s.params := rfl
@[simp] theorem State.putSave_rstN (b : Block) (s : State) : (s.putSave b).rstN = s.rstN := rfl
@[simp] theorem State.putSave_ie (b : Block) (s : State) : (s.putSave b).ie = s.ie := rfl
@[simp] theorem State.putSave_busy (b : Block) (s : State) : (s.putSave b).busy = s.busy := rfl
@[simp] theorem State.putSave_done (b : Block) (s : State) : (s.putSave b).done = s.done := rfl
@[simp] theorem State.putSave_valid (b : Block) (s : State) : (s.putSave b).valid = s.valid := rfl
@[simp] theorem State.putSave_werr (b : Block) (s : State) : (s.putSave b).werr = s.werr := rfl
@[simp] theorem State.putSave_err (b : Block) (s : State) : (s.putSave b).err = s.err := rfl
@[simp] theorem State.putSave_cmd (b : Block) (s : State) : (s.putSave b).cmd = s.cmd := rfl
@[simp] theorem State.putSave_nrounds (b : Block) (s : State) : (s.putSave b).nrounds = s.nrounds := rfl
@[simp] theorem State.putSave_len (b : Block) (s : State) : (s.putSave b).len = s.len := rfl
@[simp] theorem State.putSave_outLen (b : Block) (s : State) : (s.putSave b).outLen = s.outLen := rfl
@[simp] theorem State.putSave_iv (b : Block) (s : State) : (s.putSave b).iv = s.iv := rfl
@[simp] theorem State.putSave_blkIn (b : Block) (s : State) : (s.putSave b).blkIn = s.blkIn := rfl
@[simp] theorem State.putSave_blkOut (b : Block) (s : State) : (s.putSave b).blkOut = s.blkOut := rfl
@[simp] theorem State.putSave_chain (b : Block) (s : State) : (s.putSave b).chain = s.chain := rfl
@[simp] theorem State.putSave_rfOut (b : Block) (s : State) : (s.putSave b).rfOut = s.rfOut := rfl
@[simp] theorem State.putSave_mem (b : Block) (s : State) : (s.putSave b).mem = s.mem := rfl
@[simp] theorem State.putSave_half (b : Block) (s : State) : (s.putSave b).half = s.half := rfl
@[simp] theorem State.putSave_roundCounter (b : Block) (s : State) : (s.putSave b).roundCounter = s.roundCounter := rfl
@[simp] theorem State.putSave_blockIndex (b : Block) (s : State) : (s.putSave b).blockIndex = s.blockIndex := rfl
@[simp] theorem State.putSave_prevLatch (b : Block) (s : State) : (s.putSave b).prevLatch = s.prevLatch := rfl
@[simp] theorem State.putSave_saveLatch (b : Block) (s : State) : (s.putSave b).saveLatch = b := rfl
@[simp] theorem State.putSave_snap (b : Block) (s : State) : (s.putSave b).snap = s.snap := rfl
@[simp] theorem State.putSave_resp (b : Block) (s : State) : (s.putSave b).resp = s.resp := rfl
@[simp] theorem State.putSave_agenda (b : Block) (s : State) : (s.putSave b).agenda = s.agenda := rfl
@[simp] theorem State.putSave_freeCount (b : Block) (s : State) : (s.putSave b).freeCount = s.freeCount := rfl

@[simp] theorem State.respond_params (r : Response) (s : State) : (s.respond r).params = s.params := rfl
@[simp] theorem State.respond_rstN (r : Response) (s : State) : (s.respond r).rstN = s.rstN := rfl
@[simp] theorem State.respond_ie (r : Response) (s : State) : (s.respond r).ie = s.ie := rfl
@[simp] theorem State.respond_busy (r : Response) (s : State) : (s.respond r).busy = s.busy := rfl
@[simp] theorem State.respond_done (r : Response) (s : State) : (s.respond r).done = s.done := rfl
@[simp] theorem State.respond_valid (r : Response) (s : State) : (s.respond r).valid = s.valid := rfl
@[simp] theorem State.respond_werr (r : Response) (s : State) : (s.respond r).werr = s.werr := rfl
@[simp] theorem State.respond_err (r : Response) (s : State) : (s.respond r).err = s.err := rfl
@[simp] theorem State.respond_cmd (r : Response) (s : State) : (s.respond r).cmd = s.cmd := rfl
@[simp] theorem State.respond_nrounds (r : Response) (s : State) : (s.respond r).nrounds = s.nrounds := rfl
@[simp] theorem State.respond_len (r : Response) (s : State) : (s.respond r).len = s.len := rfl
@[simp] theorem State.respond_outLen (r : Response) (s : State) : (s.respond r).outLen = s.outLen := rfl
@[simp] theorem State.respond_iv (r : Response) (s : State) : (s.respond r).iv = s.iv := rfl
@[simp] theorem State.respond_blkIn (r : Response) (s : State) : (s.respond r).blkIn = s.blkIn := rfl
@[simp] theorem State.respond_blkOut (r : Response) (s : State) : (s.respond r).blkOut = s.blkOut := rfl
@[simp] theorem State.respond_chain (r : Response) (s : State) : (s.respond r).chain = s.chain := rfl
@[simp] theorem State.respond_rfOut (r : Response) (s : State) : (s.respond r).rfOut = s.rfOut := rfl
@[simp] theorem State.respond_mem (r : Response) (s : State) : (s.respond r).mem = s.mem := rfl
@[simp] theorem State.respond_half (r : Response) (s : State) : (s.respond r).half = s.half := rfl
@[simp] theorem State.respond_roundCounter (r : Response) (s : State) : (s.respond r).roundCounter = s.roundCounter := rfl
@[simp] theorem State.respond_blockIndex (r : Response) (s : State) : (s.respond r).blockIndex = s.blockIndex := rfl
@[simp] theorem State.respond_prevLatch (r : Response) (s : State) : (s.respond r).prevLatch = s.prevLatch := rfl
@[simp] theorem State.respond_saveLatch (r : Response) (s : State) : (s.respond r).saveLatch = s.saveLatch := rfl
@[simp] theorem State.respond_snap (r : Response) (s : State) : (s.respond r).snap = s.snap := rfl
@[simp] theorem State.respond_resp (r : Response) (s : State) : (s.respond r).resp = some r := rfl
@[simp] theorem State.respond_agenda (r : Response) (s : State) : (s.respond r).agenda = s.agenda := rfl
@[simp] theorem State.respond_freeCount (r : Response) (s : State) : (s.respond r).freeCount = s.freeCount := rfl

@[simp] theorem State.putAgenda_params (es : List Event) (s : State) : (s.putAgenda es).params = s.params := rfl
@[simp] theorem State.putAgenda_rstN (es : List Event) (s : State) : (s.putAgenda es).rstN = s.rstN := rfl
@[simp] theorem State.putAgenda_ie (es : List Event) (s : State) : (s.putAgenda es).ie = s.ie := rfl
@[simp] theorem State.putAgenda_busy (es : List Event) (s : State) : (s.putAgenda es).busy = s.busy := rfl
@[simp] theorem State.putAgenda_done (es : List Event) (s : State) : (s.putAgenda es).done = s.done := rfl
@[simp] theorem State.putAgenda_valid (es : List Event) (s : State) : (s.putAgenda es).valid = s.valid := rfl
@[simp] theorem State.putAgenda_werr (es : List Event) (s : State) : (s.putAgenda es).werr = s.werr := rfl
@[simp] theorem State.putAgenda_err (es : List Event) (s : State) : (s.putAgenda es).err = s.err := rfl
@[simp] theorem State.putAgenda_cmd (es : List Event) (s : State) : (s.putAgenda es).cmd = s.cmd := rfl
@[simp] theorem State.putAgenda_nrounds (es : List Event) (s : State) : (s.putAgenda es).nrounds = s.nrounds := rfl
@[simp] theorem State.putAgenda_len (es : List Event) (s : State) : (s.putAgenda es).len = s.len := rfl
@[simp] theorem State.putAgenda_outLen (es : List Event) (s : State) : (s.putAgenda es).outLen = s.outLen := rfl
@[simp] theorem State.putAgenda_iv (es : List Event) (s : State) : (s.putAgenda es).iv = s.iv := rfl
@[simp] theorem State.putAgenda_blkIn (es : List Event) (s : State) : (s.putAgenda es).blkIn = s.blkIn := rfl
@[simp] theorem State.putAgenda_blkOut (es : List Event) (s : State) : (s.putAgenda es).blkOut = s.blkOut := rfl
@[simp] theorem State.putAgenda_chain (es : List Event) (s : State) : (s.putAgenda es).chain = s.chain := rfl
@[simp] theorem State.putAgenda_rfOut (es : List Event) (s : State) : (s.putAgenda es).rfOut = s.rfOut := rfl
@[simp] theorem State.putAgenda_mem (es : List Event) (s : State) : (s.putAgenda es).mem = s.mem := rfl
@[simp] theorem State.putAgenda_half (es : List Event) (s : State) : (s.putAgenda es).half = s.half := rfl
@[simp] theorem State.putAgenda_roundCounter (es : List Event) (s : State) : (s.putAgenda es).roundCounter = s.roundCounter := rfl
@[simp] theorem State.putAgenda_blockIndex (es : List Event) (s : State) : (s.putAgenda es).blockIndex = s.blockIndex := rfl
@[simp] theorem State.putAgenda_prevLatch (es : List Event) (s : State) : (s.putAgenda es).prevLatch = s.prevLatch := rfl
@[simp] theorem State.putAgenda_saveLatch (es : List Event) (s : State) : (s.putAgenda es).saveLatch = s.saveLatch := rfl
@[simp] theorem State.putAgenda_snap (es : List Event) (s : State) : (s.putAgenda es).snap = s.snap := rfl
@[simp] theorem State.putAgenda_resp (es : List Event) (s : State) : (s.putAgenda es).resp = s.resp := rfl
@[simp] theorem State.putAgenda_agenda (es : List Event) (s : State) : (s.putAgenda es).agenda = es := rfl
@[simp] theorem State.putAgenda_freeCount (es : List Event) (s : State) : (s.putAgenda es).freeCount = s.freeCount := rfl

@[simp] theorem State.writeStatus_params (v : Word) (s : State) : (s.writeStatus v).params = s.params := rfl
@[simp] theorem State.writeStatus_rstN (v : Word) (s : State) : (s.writeStatus v).rstN = s.rstN := rfl
@[simp] theorem State.writeStatus_ie (v : Word) (s : State) : (s.writeStatus v).ie = s.ie := rfl
@[simp] theorem State.writeStatus_busy (v : Word) (s : State) : (s.writeStatus v).busy = s.busy := rfl
@[simp] theorem State.writeStatus_done (v : Word) (s : State) : (s.writeStatus v).done = if v.getLsbD 1 then false else s.done := rfl
@[simp] theorem State.writeStatus_valid (v : Word) (s : State) : (s.writeStatus v).valid = s.valid := rfl
@[simp] theorem State.writeStatus_werr (v : Word) (s : State) : (s.writeStatus v).werr = if v.getLsbD 3 then false else s.werr := rfl
@[simp] theorem State.writeStatus_err (v : Word) (s : State) : (s.writeStatus v).err = s.err := rfl
@[simp] theorem State.writeStatus_cmd (v : Word) (s : State) : (s.writeStatus v).cmd = s.cmd := rfl
@[simp] theorem State.writeStatus_nrounds (v : Word) (s : State) : (s.writeStatus v).nrounds = s.nrounds := rfl
@[simp] theorem State.writeStatus_len (v : Word) (s : State) : (s.writeStatus v).len = s.len := rfl
@[simp] theorem State.writeStatus_outLen (v : Word) (s : State) : (s.writeStatus v).outLen = s.outLen := rfl
@[simp] theorem State.writeStatus_iv (v : Word) (s : State) : (s.writeStatus v).iv = s.iv := rfl
@[simp] theorem State.writeStatus_blkIn (v : Word) (s : State) : (s.writeStatus v).blkIn = s.blkIn := rfl
@[simp] theorem State.writeStatus_blkOut (v : Word) (s : State) : (s.writeStatus v).blkOut = s.blkOut := rfl
@[simp] theorem State.writeStatus_chain (v : Word) (s : State) : (s.writeStatus v).chain = s.chain := rfl
@[simp] theorem State.writeStatus_rfOut (v : Word) (s : State) : (s.writeStatus v).rfOut = s.rfOut := rfl
@[simp] theorem State.writeStatus_mem (v : Word) (s : State) : (s.writeStatus v).mem = s.mem := rfl
@[simp] theorem State.writeStatus_half (v : Word) (s : State) : (s.writeStatus v).half = s.half := rfl
@[simp] theorem State.writeStatus_roundCounter (v : Word) (s : State) : (s.writeStatus v).roundCounter = s.roundCounter := rfl
@[simp] theorem State.writeStatus_blockIndex (v : Word) (s : State) : (s.writeStatus v).blockIndex = s.blockIndex := rfl
@[simp] theorem State.writeStatus_prevLatch (v : Word) (s : State) : (s.writeStatus v).prevLatch = s.prevLatch := rfl
@[simp] theorem State.writeStatus_saveLatch (v : Word) (s : State) : (s.writeStatus v).saveLatch = s.saveLatch := rfl
@[simp] theorem State.writeStatus_snap (v : Word) (s : State) : (s.writeStatus v).snap = s.snap := rfl
@[simp] theorem State.writeStatus_resp (v : Word) (s : State) : (s.writeStatus v).resp = s.resp := rfl
@[simp] theorem State.writeStatus_agenda (v : Word) (s : State) : (s.writeStatus v).agenda = s.agenda := rfl
@[simp] theorem State.writeStatus_freeCount (v : Word) (s : State) : (s.writeStatus v).freeCount = s.freeCount := rfl

@[simp] theorem State.writeCtrl_params (v : Word) (s : State) : (s.writeCtrl v).params = s.params := rfl
@[simp] theorem State.writeCtrl_rstN (v : Word) (s : State) : (s.writeCtrl v).rstN = s.rstN := rfl
@[simp] theorem State.writeCtrl_ie (v : Word) (s : State) : (s.writeCtrl v).ie = v.getLsbD 0 := rfl
@[simp] theorem State.writeCtrl_busy (v : Word) (s : State) : (s.writeCtrl v).busy = s.busy := rfl
@[simp] theorem State.writeCtrl_done (v : Word) (s : State) : (s.writeCtrl v).done = s.done := rfl
@[simp] theorem State.writeCtrl_valid (v : Word) (s : State) : (s.writeCtrl v).valid = s.valid := rfl
@[simp] theorem State.writeCtrl_werr (v : Word) (s : State) : (s.writeCtrl v).werr = s.werr := rfl
@[simp] theorem State.writeCtrl_err (v : Word) (s : State) : (s.writeCtrl v).err = s.err := rfl
@[simp] theorem State.writeCtrl_cmd (v : Word) (s : State) : (s.writeCtrl v).cmd = s.cmd := rfl
@[simp] theorem State.writeCtrl_nrounds (v : Word) (s : State) : (s.writeCtrl v).nrounds = s.nrounds := rfl
@[simp] theorem State.writeCtrl_len (v : Word) (s : State) : (s.writeCtrl v).len = s.len := rfl
@[simp] theorem State.writeCtrl_outLen (v : Word) (s : State) : (s.writeCtrl v).outLen = s.outLen := rfl
@[simp] theorem State.writeCtrl_iv (v : Word) (s : State) : (s.writeCtrl v).iv = s.iv := rfl
@[simp] theorem State.writeCtrl_blkIn (v : Word) (s : State) : (s.writeCtrl v).blkIn = s.blkIn := rfl
@[simp] theorem State.writeCtrl_blkOut (v : Word) (s : State) : (s.writeCtrl v).blkOut = s.blkOut := rfl
@[simp] theorem State.writeCtrl_chain (v : Word) (s : State) : (s.writeCtrl v).chain = s.chain := rfl
@[simp] theorem State.writeCtrl_rfOut (v : Word) (s : State) : (s.writeCtrl v).rfOut = s.rfOut := rfl
@[simp] theorem State.writeCtrl_mem (v : Word) (s : State) : (s.writeCtrl v).mem = s.mem := rfl
@[simp] theorem State.writeCtrl_half (v : Word) (s : State) : (s.writeCtrl v).half = s.half := rfl
@[simp] theorem State.writeCtrl_roundCounter (v : Word) (s : State) : (s.writeCtrl v).roundCounter = s.roundCounter := rfl
@[simp] theorem State.writeCtrl_blockIndex (v : Word) (s : State) : (s.writeCtrl v).blockIndex = s.blockIndex := rfl
@[simp] theorem State.writeCtrl_prevLatch (v : Word) (s : State) : (s.writeCtrl v).prevLatch = s.prevLatch := rfl
@[simp] theorem State.writeCtrl_saveLatch (v : Word) (s : State) : (s.writeCtrl v).saveLatch = s.saveLatch := rfl
@[simp] theorem State.writeCtrl_snap (v : Word) (s : State) : (s.writeCtrl v).snap = s.snap := rfl
@[simp] theorem State.writeCtrl_resp (v : Word) (s : State) : (s.writeCtrl v).resp = s.resp := rfl
@[simp] theorem State.writeCtrl_agenda (v : Word) (s : State) : (s.writeCtrl v).agenda = s.agenda := rfl
@[simp] theorem State.writeCtrl_freeCount (v : Word) (s : State) : (s.writeCtrl v).freeCount = s.freeCount := rfl

/-- Reading a value's operands gives back the fields they are made of. -/
@[simp] theorem State.operands_mem (s : State) : s.operands.mem = s.mem := rfl
@[simp] theorem State.operands_nrounds (s : State) : s.operands.nrounds = s.nrounds := rfl
@[simp] theorem State.operands_len (s : State) : s.operands.len = s.len := rfl
@[simp] theorem State.operands_iv (s : State) : s.operands.iv = s.iv := rfl
@[simp] theorem State.operands_blkIn (s : State) : s.operands.blkIn = s.blkIn := rfl
@[simp] theorem State.operands_chain (s : State) : s.operands.chain = s.chain := rfl

/-- A coherent snapshot is the live operands: executing on it is executing on the state as it stands. -/
theorem State.atAcceptance_of_coherent {s : State} (h : s.snap = s.operands) : s.atAcceptance = s := by
  apply State.ext <;> simp [h]

end Sys2Proof.Machine
end

