-- ==== Sys2Proof/Laws/Exec.lean ====
section
/-! SUPPORT. Once for each shared operation of the commands, everything it can do; provers cite these in place of
unfolding the meanings. -/

namespace Sys2Proof.Machine

/-! ### The checks -/

theorem withRounds_ok {s : State} {k : Nat → Host.Outcome State Fault Refusal} (h : s.roundsLegal) :
    withRounds s k = k s.nrounds.toNat := if_neg (by omega)

theorem withRounds_bad {s : State} {k : Nat → Host.Outcome State Fault Refusal} (h : ¬ s.roundsLegal) :
    withRounds s k = raise .badNrounds s := if_pos (by omega)

theorem withPlainLen_ok {s : State} {k : Nat → Host.Outcome State Fault Refusal}
    (h : s.len.toNat < s.params.msgBytes) : withPlainLen s k = k s.len.toNat := if_neg (by omega)

theorem withPlainLen_bad {s : State} {k : Nat → Host.Outcome State Fault Refusal}
    (h : s.params.msgBytes ≤ s.len.toNat) : withPlainLen s k = raise .badLen s := if_pos h

theorem withCipherLen_ok {s : State} {k : Nat → Host.Outcome State Fault Refusal} (h0 : s.len.toNat ≠ 0)
    (h8 : s.len.toNat % 8 = 0) (h : s.len.toNat ≤ s.params.msgBytes) : withCipherLen s k = k s.len.toNat :=
  if_neg (by omega)

theorem withCipherLen_bad {s : State} {k : Nat → Host.Outcome State Fault Refusal}
    (h : s.len.toNat = 0 ∨ s.len.toNat % 8 ≠ 0 ∨ s.params.msgBytes < s.len.toNat) :
    withCipherLen s k = raise .badLen s := if_pos h

/-- What a cipher command's round check can lead to. -/
theorem withRounds_cases (s : State) (k : Nat → Host.Outcome State Fault Refusal) :
    (s.roundsLegal ∧ withRounds s k = k s.nrounds.toNat)
      ∨ (¬ s.roundsLegal ∧ withRounds s k = .next (s.complete .badNrounds)) := by
  by_cases h : s.roundsLegal
  · exact .inl ⟨h, withRounds_ok h⟩
  · exact .inr ⟨h, withRounds_bad h⟩

theorem withPlainLen_cases (s : State) (k : Nat → Host.Outcome State Fault Refusal) :
    (s.len.toNat < s.params.msgBytes ∧ withPlainLen s k = k s.len.toNat)
      ∨ (s.params.msgBytes ≤ s.len.toNat ∧ withPlainLen s k = .next (s.complete .badLen)) := by
  by_cases h : s.params.msgBytes ≤ s.len.toNat
  · exact .inr ⟨h, withPlainLen_bad h⟩
  · exact .inl ⟨by omega, withPlainLen_ok (by omega)⟩

theorem withCipherLen_cases (s : State) (k : Nat → Host.Outcome State Fault Refusal) :
    ((s.len.toNat ≠ 0 ∧ s.len.toNat % 8 = 0 ∧ s.len.toNat ≤ s.params.msgBytes)
        ∧ withCipherLen s k = k s.len.toNat)
      ∨ ((s.len.toNat = 0 ∨ s.len.toNat % 8 ≠ 0 ∨ s.params.msgBytes < s.len.toNat)
        ∧ withCipherLen s k = .next (s.complete .badLen)) := by
  by_cases h : s.len.toNat = 0 ∨ s.len.toNat % 8 ≠ 0 ∨ s.params.msgBytes < s.len.toNat
  · exact .inr ⟨h, withCipherLen_bad h⟩
  · exact .inl ⟨by omega, withCipherLen_ok (by omega) (by omega) (by omega)⟩

/-! ### Each command, once for all: the state at its completion, by the checks it passes -/

/-- The state a command completes in, as a function of the state it runs on. `exec_eq_effect` says that this is `exec`. -/
def effect (i : Instr) (s : State) : State :=
  match i with
  | .nop => s.complete .none
  | .ecbEnc =>
    if s.roundsLegal then
      let o := encBlock s.mem s.nrounds.toNat s.blkIn
      ((s.putFeistel o (s.nrounds.toNat - 1)).putBlkOut o).complete .none
    else s.complete .badNrounds
  | .ecbDec =>
    if s.roundsLegal then
      let o := decBlock s.mem s.nrounds.toNat s.blkIn
      ((s.putFeistel o 0).putBlkOut o).complete .none
    else s.complete .badNrounds
  | .rfEval k =>
    if k < s.params.keyDepth then
      (s.putRfOut (roundFunction s.mem (s.mem.key k) s.blkIn.R)).complete .none
    else s.complete .badKidx
  | .cbcEncBlk sel =>
    if s.roundsLegal then
      let prev := feedback sel s
      let c := encBlock s.mem s.nrounds.toNat (s.blkIn.xor prev)
      ((((s.putFeistel c (s.nrounds.toNat - 1)).putCbc 0 prev).putBlkOut c).putChain c).complete .none
    else s.complete .badNrounds
  | .cbcDecBlk sel =>
    if s.roundsLegal then
      let prev := feedback sel s
      let d := decBlock s.mem s.nrounds.toNat s.blkIn
      (((((s.putFeistel d 0).putCbc 0 prev).putSave s.blkIn).putBlkOut (d.xor prev)).putChain s.blkIn).complete .none
    else s.complete .badNrounds
  | .padCheck =>
    if s.roundsLegal then
      let p := (decBlock s.mem s.nrounds.toNat s.blkIn).xor s.iv
      ((s.putFeistel p 0).putValid (validPadding p)).complete .none
    else s.complete .badNrounds
  | .cbcEnc =>
    if s.roundsLegal then
      if s.len.toNat < s.params.msgBytes then (encodeBuffer s.nrounds.toNat s.len.toNat s).complete .none
      else s.complete .badLen
    else s.complete .badNrounds
  | .cbcDecRaw =>
    if s.roundsLegal then
      if s.len.toNat ≠ 0 ∧ s.len.toNat % 8 = 0 ∧ s.len.toNat ≤ s.params.msgBytes then
        ((decodeBuffer s.nrounds.toNat s.len.toNat s).putOutLen s.len.toNat).complete .none
      else s.complete .badLen
    else s.complete .badNrounds
  | .cbcDec =>
    if s.roundsLegal then
      if s.len.toNat ≠ 0 ∧ s.len.toNat % 8 = 0 ∧ s.len.toNat ≤ s.params.msgBytes then
        let u := decodeBuffer s.nrounds.toNat s.len.toNat s
        let p := (u.mem.msg (s.len.toNat - 1)).toNat
        if 1 ≤ p ∧ p ≤ 8 then (u.putOutLen (s.len.toNat - p)).complete .none
        else (u.putOutLen 0).complete .badPad
      else s.complete .badLen
    else s.complete .badNrounds

/-- Every command completes, in the state `effect` gives. -/
theorem exec_eq_effect (i : Instr) (s : State) : exec i s = .next (effect i s) := by
  cases i with
  | nop => rfl
  | ecbEnc =>
    simp only [exec, execEcbEnc, effect]
    rcases withRounds_cases s _ with ⟨h, e⟩ | ⟨h, e⟩ <;> rw [e] <;> simp [h, finish]
  | ecbDec =>
    simp only [exec, execEcbDec, effect]
    rcases withRounds_cases s _ with ⟨h, e⟩ | ⟨h, e⟩ <;> rw [e] <;> simp [h, finish]
  | rfEval k =>
    simp only [exec, execRfEval, effect, raise, finish]
    split
    · rw [if_neg (by omega)]
    · rw [if_pos (by omega)]
  | cbcEncBlk sel =>
    simp only [exec, execCbcEncBlk, effect]
    rcases withRounds_cases s _ with ⟨h, e⟩ | ⟨h, e⟩ <;> rw [e] <;> simp [h, finish]
  | cbcDecBlk sel =>
    simp only [exec, execCbcDecBlk, effect]
    rcases withRounds_cases s _ with ⟨h, e⟩ | ⟨h, e⟩ <;> rw [e] <;> simp [h, finish]
  | padCheck =>
    simp only [exec, execPadCheck, effect]
    rcases withRounds_cases s _ with ⟨h, e⟩ | ⟨h, e⟩ <;> rw [e] <;> simp [h, finish]
  | cbcEnc =>
    simp only [exec, execCbcEnc, effect]
    rcases withRounds_cases s _ with ⟨h, e⟩ | ⟨h, e⟩ <;> rw [e]
    · rcases withPlainLen_cases s _ with ⟨h', e'⟩ | ⟨h', e'⟩ <;> rw [e', if_pos h]
      · rw [if_pos h']; rfl
      · rw [if_neg (by omega)]
    · rw [if_neg h]
  | cbcDecRaw =>
    simp only [exec, execCbcDecRaw, effect]
    rcases withRounds_cases s _ with ⟨h, e⟩ | ⟨h, e⟩ <;> rw [e]
    · rcases withCipherLen_cases s _ with ⟨h', e'⟩ | ⟨h', e'⟩ <;> rw [e', if_pos h]
      · rw [if_pos h']; rfl
      · rw [if_neg (by omega)]
    · rw [if_neg h]
  | cbcDec =>
    simp only [exec, execCbcDec, effect]
    rcases withRounds_cases s _ with ⟨h, e⟩ | ⟨h, e⟩ <;> rw [e]
    · rcases withCipherLen_cases s _ with ⟨h', e'⟩ | ⟨h', e'⟩ <;> rw [e', if_pos h]
      · rw [if_pos h']
        simp only [stripPadding, raise, finish]
        split
        · rw [if_neg (by omega)]
        · rw [if_pos (by omega)]
      · rw [if_neg (by omega)]
    · rw [if_neg h]

/-- What an outcome of `exec` is. -/
theorem eq_effect_of_exec {i : Instr} {s t : State} (h : exec i s = .next t) : t = effect i s := by
  rw [exec_eq_effect] at h
  cases h
  rfl

/-! ### The buffer commands' effect, field by field -/

/-- Everything `encodeBuffer` does to the RAMs and the registers. -/
theorem encodeBuffer_mem (rounds n : Nat) (s : State) :
    (encodeBuffer rounds n s).mem
      = (encryptBlocks (encBlock s.mem rounds) ((n + padLen n) / 8) 0
          (s.mem.fillMsg n (BitVec.ofNat 8 (padLen n)) (padLen n)) s.iv).1 := rfl

theorem encodeBuffer_chain (rounds n : Nat) (s : State) :
    (encodeBuffer rounds n s).chain = (encodeBuffer rounds n s).mem.block ((n + padLen n) / 8 - 1) := by
  have h := encryptBlocks_prev (encBlock s.mem rounds) ((n + padLen n) / 8) 0
    (s.mem.fillMsg n (BitVec.ofNat 8 (padLen n)) (padLen n)) s.iv
  rw [if_neg (by rw [padLen_count]; omega), Nat.zero_add] at h
  exact h

theorem encodeBuffer_outLen (rounds n : Nat) (s : State) :
    (encodeBuffer rounds n s).outLen = BitVec.ofNat 14 (n + padLen n) := rfl

/-- CBC_ENC changes the RAMs, CHAIN, OUT_LEN and hidden registers only. -/
theorem encodeBuffer_frame (rounds n : Nat) (s : State) :
    encodeBuffer rounds n s = { s with
      mem := (encodeBuffer rounds n s).mem, chain := (encodeBuffer rounds n s).chain
      outLen := (encodeBuffer rounds n s).outLen, half := (encodeBuffer rounds n s).half
      roundCounter := (encodeBuffer rounds n s).roundCounter, blockIndex := (encodeBuffer rounds n s).blockIndex
      prevLatch := (encodeBuffer rounds n s).prevLatch } := by
  apply State.ext <;> simp [encodeBuffer]

/-! The fields CBC_ENC leaves alone. -/

@[simp] theorem encodeBuffer_params (rounds n : Nat) (s : State) : (encodeBuffer rounds n s).params = s.params := by simp [encodeBuffer]
@[simp] theorem encodeBuffer_rstN (rounds n : Nat) (s : State) : (encodeBuffer rounds n s).rstN = s.rstN := by simp [encodeBuffer]
@[simp] theorem encodeBuffer_ie (rounds n : Nat) (s : State) : (encodeBuffer rounds n s).ie = s.ie := by simp [encodeBuffer]
@[simp] theorem encodeBuffer_busy (rounds n : Nat) (s : State) : (encodeBuffer rounds n s).busy = s.busy := by simp [encodeBuffer]
@[simp] theorem encodeBuffer_done (rounds n : Nat) (s : State) : (encodeBuffer rounds n s).done = s.done := by simp [encodeBuffer]
@[simp] theorem encodeBuffer_valid (rounds n : Nat) (s : State) : (encodeBuffer rounds n s).valid = s.valid := by simp [encodeBuffer]
@[simp] theorem encodeBuffer_werr (rounds n : Nat) (s : State) : (encodeBuffer rounds n s).werr = s.werr := by simp [encodeBuffer]
@[simp] theorem encodeBuffer_err (rounds n : Nat) (s : State) : (encodeBuffer rounds n s).err = s.err := by simp [encodeBuffer]
@[simp] theorem encodeBuffer_cmd (rounds n : Nat) (s : State) : (encodeBuffer rounds n s).cmd = s.cmd := by simp [encodeBuffer]
@[simp] theorem encodeBuffer_nrounds (rounds n : Nat) (s : State) : (encodeBuffer rounds n s).nrounds = s.nrounds := by simp [encodeBuffer]
@[simp] theorem encodeBuffer_len (rounds n : Nat) (s : State) : (encodeBuffer rounds n s).len = s.len := by simp [encodeBuffer]
@[simp] theorem encodeBuffer_iv (rounds n : Nat) (s : State) : (encodeBuffer rounds n s).iv = s.iv := by simp [encodeBuffer]
@[simp] theorem encodeBuffer_blkIn (rounds n : Nat) (s : State) : (encodeBuffer rounds n s).blkIn = s.blkIn := by simp [encodeBuffer]
@[simp] theorem encodeBuffer_blkOut (rounds n : Nat) (s : State) : (encodeBuffer rounds n s).blkOut = s.blkOut := by simp [encodeBuffer]
@[simp] theorem encodeBuffer_rfOut (rounds n : Nat) (s : State) : (encodeBuffer rounds n s).rfOut = s.rfOut := by simp [encodeBuffer]
@[simp] theorem encodeBuffer_saveLatch (rounds n : Nat) (s : State) : (encodeBuffer rounds n s).saveLatch = s.saveLatch := by simp [encodeBuffer]
@[simp] theorem encodeBuffer_snap (rounds n : Nat) (s : State) : (encodeBuffer rounds n s).snap = s.snap := by simp [encodeBuffer]
@[simp] theorem encodeBuffer_resp (rounds n : Nat) (s : State) : (encodeBuffer rounds n s).resp = s.resp := by simp [encodeBuffer]
@[simp] theorem encodeBuffer_agenda (rounds n : Nat) (s : State) : (encodeBuffer rounds n s).agenda = s.agenda := by simp [encodeBuffer]
@[simp] theorem encodeBuffer_freeCount (rounds n : Nat) (s : State) : (encodeBuffer rounds n s).freeCount = s.freeCount := by simp [encodeBuffer]

/-- CBC_ENC changes no byte outside the padded message (R69). -/
theorem byte_encodeBuffer_outside (rounds n : Nat) (s : State) {x : Nat}
    (hx : x < msgAddr 0 ∨ msgAddr (n + padLen n) ≤ x) : (encodeBuffer rounds n s).mem.byte x = s.mem.byte x := by
  have hb := padLen_blocks n
  rw [encodeBuffer_mem, byte_encryptBlocks_outside _ _ _ _ _ (by unfold msgAddr at *; omega), byte_fillMsg,
    if_neg (by unfold msgAddr at *; omega)]

theorem encodeBuffer_wf {rounds n : Nat} {s : State} (hp : s.params.legal) (h : s.mem.wf s.params)
    (hn : n < s.params.msgBytes) : (encodeBuffer rounds n s).mem.wf s.params := by
  have hb := padLen_blocks n
  have hf : n + padLen n ≤ s.params.msgBytes := (padLen_fits hp.2.2.1).mpr hn
  exact encryptBlocks_wf _ _ _ _ (fillMsg_wf _ h hf) (by omega)

theorem decodeBuffer_mem (rounds n : Nat) (s : State) :
    (decodeBuffer rounds n s).mem = (decryptBlocks (decBlock s.mem rounds) (n / 8) 0 s.mem s.iv).1 := rfl

theorem decodeBuffer_chain {rounds n : Nat} (s : State) (h0 : n ≠ 0) (h8 : n % 8 = 0) :
    (decodeBuffer rounds n s).chain = s.mem.block (n / 8 - 1) := by
  have h := decryptBlocks_prev (decBlock s.mem rounds) (n / 8) 0 s.mem s.iv
  rw [if_neg (by omega), Nat.zero_add] at h
  exact h

/-- The decode of the buffer changes the RAMs, CHAIN and hidden registers only. -/
theorem decodeBuffer_frame (rounds n : Nat) (s : State) :
    decodeBuffer rounds n s = { s with
      mem := (decodeBuffer rounds n s).mem, chain := (decodeBuffer rounds n s).chain
      half := (decodeBuffer rounds n s).half, roundCounter := (decodeBuffer rounds n s).roundCounter
      blockIndex := (decodeBuffer rounds n s).blockIndex, prevLatch := (decodeBuffer rounds n s).prevLatch
      saveLatch := (decodeBuffer rounds n s).saveLatch } := by
  apply State.ext <;> simp [decodeBuffer]

/-! The fields the decode of the buffer leaves alone. -/

@[simp] theorem decodeBuffer_params (rounds n : Nat) (s : State) : (decodeBuffer rounds n s).params = s.params := by simp [decodeBuffer]
@[simp] theorem decodeBuffer_rstN (rounds n : Nat) (s : State) : (decodeBuffer rounds n s).rstN = s.rstN := by simp [decodeBuffer]
@[simp] theorem decodeBuffer_ie (rounds n : Nat) (s : State) : (decodeBuffer rounds n s).ie = s.ie := by simp [decodeBuffer]
@[simp] theorem decodeBuffer_busy (rounds n : Nat) (s : State) : (decodeBuffer rounds n s).busy = s.busy := by simp [decodeBuffer]
@[simp] theorem decodeBuffer_done (rounds n : Nat) (s : State) : (decodeBuffer rounds n s).done = s.done := by simp [decodeBuffer]
@[simp] theorem decodeBuffer_valid (rounds n : Nat) (s : State) : (decodeBuffer rounds n s).valid = s.valid := by simp [decodeBuffer]
@[simp] theorem decodeBuffer_werr (rounds n : Nat) (s : State) : (decodeBuffer rounds n s).werr = s.werr := by simp [decodeBuffer]
@[simp] theorem decodeBuffer_err (rounds n : Nat) (s : State) : (decodeBuffer rounds n s).err = s.err := by simp [decodeBuffer]
@[simp] theorem decodeBuffer_cmd (rounds n : Nat) (s : State) : (decodeBuffer rounds n s).cmd = s.cmd := by simp [decodeBuffer]
@[simp] theorem decodeBuffer_nrounds (rounds n : Nat) (s : State) : (decodeBuffer rounds n s).nrounds = s.nrounds := by simp [decodeBuffer]
@[simp] theorem decodeBuffer_len (rounds n : Nat) (s : State) : (decodeBuffer rounds n s).len = s.len := by simp [decodeBuffer]
@[simp] theorem decodeBuffer_outLen (rounds n : Nat) (s : State) : (decodeBuffer rounds n s).outLen = s.outLen := by simp [decodeBuffer]
@[simp] theorem decodeBuffer_iv (rounds n : Nat) (s : State) : (decodeBuffer rounds n s).iv = s.iv := by simp [decodeBuffer]
@[simp] theorem decodeBuffer_blkIn (rounds n : Nat) (s : State) : (decodeBuffer rounds n s).blkIn = s.blkIn := by simp [decodeBuffer]
@[simp] theorem decodeBuffer_blkOut (rounds n : Nat) (s : State) : (decodeBuffer rounds n s).blkOut = s.blkOut := by simp [decodeBuffer]
@[simp] theorem decodeBuffer_rfOut (rounds n : Nat) (s : State) : (decodeBuffer rounds n s).rfOut = s.rfOut := by simp [decodeBuffer]
@[simp] theorem decodeBuffer_snap (rounds n : Nat) (s : State) : (decodeBuffer rounds n s).snap = s.snap := by simp [decodeBuffer]
@[simp] theorem decodeBuffer_resp (rounds n : Nat) (s : State) : (decodeBuffer rounds n s).resp = s.resp := by simp [decodeBuffer]
@[simp] theorem decodeBuffer_agenda (rounds n : Nat) (s : State) : (decodeBuffer rounds n s).agenda = s.agenda := by simp [decodeBuffer]
@[simp] theorem decodeBuffer_freeCount (rounds n : Nat) (s : State) : (decodeBuffer rounds n s).freeCount = s.freeCount := by simp [decodeBuffer]

/-- The decode changes no byte outside the ciphertext (R69). -/
theorem byte_decodeBuffer_outside (rounds n : Nat) (s : State) {x : Nat} (h8 : n % 8 = 0)
    (hx : x < msgAddr 0 ∨ msgAddr n ≤ x) : (decodeBuffer rounds n s).mem.byte x = s.mem.byte x :=
  byte_decryptBlocks_outside _ _ _ _ _ (by unfold msgAddr at *; omega)

/-- Block by block (R164). -/
theorem block_decodeBuffer (rounds n : Nat) (s : State) {b : Nat} (hb : b < n / 8) :
    (decodeBuffer rounds n s).mem.block b
      = (decBlock s.mem rounds (s.mem.block b)).xor (if b = 0 then s.iv else s.mem.block (b - 1)) :=
  block_decryptBlocks _ _ _ _ _ (Nat.zero_le b) (by omega)

theorem decodeBuffer_wf {rounds n : Nat} {s : State} (h : s.mem.wf s.params) (hn : n ≤ s.params.msgBytes) :
    (decodeBuffer rounds n s).mem.wf s.params := decryptBlocks_wf _ _ _ _ h (by omega)

/-! ### The RAMs and OUT_LEN after any command -/

/-- No command draws a RAM anew (R232). -/
theorem effect_ramEpoch (i : Instr) (s : State) : (effect i s).mem.ramEpoch = s.mem.ramEpoch := by
  cases i <;> simp only [effect] <;> (repeat' split) <;> simp [encodeBuffer_mem, decodeBuffer_mem]

theorem effect_msgEpoch (i : Instr) (s : State) : (effect i s).mem.msgEpoch = s.mem.msgEpoch := by
  cases i <;> simp only [effect] <;> (repeat' split) <;> simp [encodeBuffer_mem, decodeBuffer_mem]

/-- Every command keeps the RAMs in canonical form. -/
theorem effect_wf {i : Instr} {s : State} (hp : s.params.legal) (h : s.mem.wf s.params) :
    (effect i s).mem.wf s.params := by
  cases i with
  | cbcEnc =>
    simp only [effect]
    split
    · split
      · rw [State.complete_mem]
        exact encodeBuffer_wf hp h (by assumption)
      · exact h
    · exact h
  | cbcDecRaw =>
    simp only [effect]
    split
    · split
      · rename_i hl
        rw [State.complete_mem, State.putOutLen_mem]
        exact decodeBuffer_wf h hl.2.2
      · exact h
    · exact h
  | cbcDec =>
    simp only [effect]
    split
    · split
      · rename_i hl
        split <;> rw [State.complete_mem, State.putOutLen_mem] <;> exact decodeBuffer_wf h hl.2.2
      · exact h
    · exact h
  | nop => exact h
  | ecbEnc => simp only [effect]; split <;> exact h
  | ecbDec => simp only [effect]; split <;> exact h
  | rfEval k => simp only [effect]; split <;> exact h
  | cbcEncBlk sel => simp only [effect]; split <;> exact h
  | cbcDecBlk sel => simp only [effect]; split <;> exact h
  | padCheck => simp only [effect]; split <;> exact h

/-- OUT_LEN stays within the buffer (R34, R170, R175). -/
theorem effect_outLen_le {i : Instr} {s : State} (hp : s.params.legal) (h : s.outLen.toNat ≤ s.params.msgBytes) :
    (effect i s).outLen.toNat ≤ s.params.msgBytes := by
  have hmax := hp.2.2.2.2
  cases i with
  | cbcEnc =>
    simp only [effect]
    split
    · split
      · rename_i hl
        have hf := (padLen_fits (n := s.len.toNat) hp.2.2.1).mpr hl
        rw [State.complete_outLen, encodeBuffer_outLen, BitVec.toNat_ofNat]
        omega
      · simpa using h
    · simpa using h
  | cbcDecRaw =>
    simp only [effect]
    split
    · split
      · rename_i hl
        rw [State.complete_outLen, State.putOutLen_outLen, BitVec.toNat_ofNat]
        omega
      · simpa using h
    · simpa using h
  | cbcDec =>
    simp only [effect]
    split
    · split
      · rename_i hl
        split <;> rw [State.complete_outLen, State.putOutLen_outLen, BitVec.toNat_ofNat] <;> omega
      · simpa using h
    · simpa using h
  | nop => exact h
  | ecbEnc => simp only [effect]; split <;> simpa using h
  | ecbDec => simp only [effect]; split <;> simpa using h
  | rfEval k => simp only [effect]; split <;> simpa using h
  | cbcEncBlk sel => simp only [effect]; split <;> simpa using h
  | cbcDecBlk sel => simp only [effect]; split <;> simpa using h
  | padCheck => simp only [effect]; split <;> simpa using h

end Sys2Proof.Machine
end

