-- ==== Sys2Proof/Laws/PerInstr.lean ====
section
/-! SUPPORT. Per command: the word the encoder writes fits the command's own row of the match/mask list
(30_encoding.md R92), and no other row. -/

namespace Sys2Proof.Laws.EncodingOwnRow

/-- The encoded word fits the row of the command's mnemonic, and the mnemonic has a row. -/
def Statement (i : Instr) : Prop :=
  i.wellFormed = true → (∃ r ∈ opcodeRows, r.mnemonic = i.mnemonic)
    ∧ ∀ r ∈ opcodeRows, r.mnemonic = i.mnemonic → r.fits (encode i) = true

/-- A row is met by a word the kernel can compute. -/
theorem of_decide {i : Instr} (h : (∃ r ∈ opcodeRows, r.mnemonic = i.mnemonic)
    ∧ ∀ r ∈ opcodeRows, r.mnemonic = i.mnemonic → r.fits (encode i) = true) : Statement i := fun _ => h

theorem nop : Statement .nop := of_decide (by decide)

theorem ecbEnc : Statement .ecbEnc := of_decide (by decide)

theorem ecbDec : Statement .ecbDec := of_decide (by decide)

/-- The mask of RF_EVAL's row covers every bit but KIDX. -/
theorem rfEval (k : Nat) : Statement (.rfEval k) := by
  have row : ∀ r ∈ opcodeRows, r.mnemonic = "RF_EVAL" → r = ⟨"RF_EVAL", 0x00000003, 0xFFFF00FF⟩ := by decide
  refine fun _ => ⟨⟨⟨"RF_EVAL", 0x00000003, 0xFFFF00FF⟩, by decide, rfl⟩, fun r hr hm => ?_⟩
  rw [row r hr hm]
  simp only [OpcodeRow.fits, beq_iff_eq]
  apply BitVec.eq_of_getLsbD_eq
  intro i hi
  simp only [encode, commandWord, BitVec.getLsbD_and, BitVec.getLsbD_append]
  interval_cases i <;> simp

theorem cbcEncBlk (f : Feedback) : Statement (.cbcEncBlk f) := by
  cases f <;> exact of_decide (by decide)

theorem cbcDecBlk (f : Feedback) : Statement (.cbcDecBlk f) := by
  cases f <;> exact of_decide (by decide)

theorem padCheck : Statement .padCheck := of_decide (by decide)

theorem cbcEnc : Statement .cbcEnc := of_decide (by decide)

theorem cbcDecRaw : Statement .cbcDecRaw := of_decide (by decide)

theorem cbcDec : Statement .cbcDec := of_decide (by decide)

end Sys2Proof.Laws.EncodingOwnRow
end

