-- ==== Sys2Proof/Laws/Window.lean ====
section
/-! SUPPORT. The laws of the register window: what an offset names, and everything a host access can do. -/

namespace Sys2Proof.Machine

/-! ### The address map -/

/-- An aligned offset that holds RAM reads and writes the RAM word at that offset (R20, R41 to R43). -/
theorem locate_implemented {p : Params} (hp : p.legal) {a : Nat} (h4 : a % 4 = 0) (ha : implemented p a = true) :
    (∀ s : State, readLoc (locate p a) s = s.mem.word a)
      ∧ (∀ (s : State) (v : Word), writeIdle (locate p a) v s = s.putMem (s.mem.setWord a v))
      ∧ (isResultLoc (locate p a) = decide (0x2000 ≤ a))
      ∧ ∀ r, locate p a ≠ .reg r := by
  unfold implemented at ha
  simp only [Bool.or_eq_true, Bool.and_eq_true, decide_eq_true_eq] at ha
  unfold locate
  by_cases h1 : a < 0x1000
  · rw [if_pos h1]
    have e : sboxAddr (a / 0x400) (a % 0x400 / 4) = a := by unfold sboxAddr; omega
    exact ⟨fun s => by simp only [readLoc, Memory.sbox, e], fun s v => by simp only [writeIdle, e],
      (decide_eq_false (by omega)).symm, fun r h => by cases h⟩
  rw [if_neg h1]
  by_cases h2 : a < 0x1400
  · have e : keyAddr ((a - 0x1000) / 4) = a := by unfold keyAddr; omega
    rw [if_pos h2, if_pos (by omega)]
    exact ⟨fun s => by simp only [readLoc, Memory.key, e], fun s v => by simp only [writeIdle, e],
      (decide_eq_false (by omega)).symm, fun r h => by cases h⟩
  · have h3 : 0x2000 ≤ a ∧ a < 0x2000 + p.msgBytes := by
      have := hp.2.1
      omega
    have e : msgAddr (4 * ((a - 0x2000) / 4)) = a := by unfold msgAddr; omega
    rw [if_neg h2, if_neg (by omega), if_pos (by omega)]
    exact ⟨fun s => by simp only [readLoc, e], fun s v => by simp only [writeIdle, e],
      (decide_eq_true h3.1).symm, fun r h => by cases h⟩

theorem mem_of_lookup {l : List (Nat × Reg)} {a : Nat} {r : Reg} (h : l.lookup a = some r) : (a, r) ∈ l := by
  induction l with
  | nil => cases h
  | cons c rest ih =>
    obtain ⟨k, x⟩ := c
    simp only [List.lookup] at h
    split at h
    · rename_i heq
      cases h
      rw [eq_of_beq heq]
      exact List.mem_cons_self
    · exact List.mem_cons_of_mem _ (ih h)

/-- Everything the address map can answer at an aligned offset: implemented RAM, one of the registers of R20, or a
reserved offset. -/
theorem locate_cases {p : Params} (hp : p.legal) {a : Nat} (ha : a < 0x4000) :
    implemented p a = true
      ∨ (∃ r, (a, r) ∈ regMap ∧ locate p a = .reg r ∧ implemented p a = false)
      ∨ (locate p a = .reserved ∧ implemented p a = false ∧ ∀ r, (a, r) ∉ regMap) := by
  by_cases hi : implemented p a = true
  · exact .inl hi
  have hi' : implemented p a = false := by simpa using hi
  have hn := hi'
  unfold implemented at hn
  simp only [Bool.or_eq_false_iff, Bool.and_eq_false_iff, decide_eq_false_iff_not] at hn
  have hreg : ∀ r, (a, r) ∈ regMap → 0x1400 ≤ a ∧ a < 0x2000 := by
    intro r hr
    simp only [regMap, List.mem_cons, Prod.mk.injEq, List.mem_nil_iff, or_false] at hr
    omega
  have h1 : ¬ a < 0x1000 := hn.1.1
  by_cases h2 : a < 0x1400
  · refine .inr (.inr ⟨?_, hi', fun r hr => by have := hreg r hr; omega⟩)
    unfold locate
    rw [if_neg h1, if_pos h2, if_neg (by omega)]
  by_cases h3 : a < 0x2000
  · have e : locate p a = (regAt a).elim .reserved .reg := by
      unfold locate
      rw [if_neg h1, if_neg h2, if_pos h3]
      cases regAt a <;> rfl
    cases hr : regAt a with
    | some r => exact .inr (.inl ⟨r, mem_of_lookup hr, by rw [e, hr]; rfl, hi'⟩)
    | none =>
      refine .inr (.inr ⟨by rw [e, hr]; rfl, hi', fun r hm => ?_⟩)
      unfold regAt at hr
      simp only [List.lookup_eq_none_iff] at hr
      simpa using hr _ hm
  · refine .inr (.inr ⟨?_, hi', fun r hr => by have := hreg r hr; omega⟩)
    unfold locate
    rw [if_neg h1, if_neg h2, if_neg h3, if_neg (by omega)]

/-- A register's offset locates it. -/
theorem locate_reg {p : Params} {a : Nat} {r : Reg} (h : (a, r) ∈ regMap) : locate p a = .reg r := by
  have map : ∀ c ∈ regMap, regAt c.1 = some c.2 ∧ 0x1400 ≤ c.1 ∧ c.1 < 0x2000 := by decide
  obtain ⟨found, low, high⟩ := map _ h
  unfold locate
  rw [if_neg (by omega), if_neg (by omega), if_pos high]
  simp only [found]

/-- A located register is at its offset. -/
theorem locate_reg_inv {p : Params} {a : Nat} {r : Reg} (h : locate p a = .reg r) : (a, r) ∈ regMap := by
  unfold locate at h
  split at h
  · cases h
  split at h
  · split at h <;> cases h
  split at h
  · cases hr : regAt a with
    | some x =>
      rw [hr] at h
      cases h
      exact mem_of_lookup hr
    | none => rw [hr] at h; cases h
  · split at h <;> cases h

theorem locate_eq_ctrl {p : Params} {a : Nat} : locate p a = .reg .ctrl ↔ a = 0x1408 := by
  constructor
  · intro h
    simpa [regMap] using locate_reg_inv h
  · rintro rfl; exact locate_reg (by decide)

theorem locate_eq_status {p : Params} {a : Nat} : locate p a = .reg .status ↔ a = 0x140C := by
  constructor
  · intro h
    simpa [regMap] using locate_reg_inv h
  · rintro rfl; exact locate_reg (by decide)

theorem locate_eq_cmd {p : Params} {a : Nat} : locate p a = .reg .cmd ↔ a = 0x1410 := by
  constructor
  · intro h
    simpa [regMap] using locate_reg_inv h
  · rintro rfl; exact locate_reg (by decide)

/-! ### Accesses -/

@[simp] theorem Access.wr_we (off : BitVec 14) (v : Word) : (Access.wr off v).we = true := rfl
@[simp] theorem Access.wr_addr (off : BitVec 14) (v : Word) : (Access.wr off v).addr = off := rfl
@[simp] theorem Access.wr_size (off : BitVec 14) (v : Word) : (Access.wr off v).size = 2 := rfl
@[simp] theorem Access.wr_wdata (off : BitVec 14) (v : Word) : (Access.wr off v).wdata = v := rfl
@[simp] theorem Access.rd_we (off : BitVec 14) : (Access.rd off).we = false := rfl
@[simp] theorem Access.rd_addr (off : BitVec 14) : (Access.rd off).addr = off := rfl
@[simp] theorem Access.rd_size (off : BitVec 14) : (Access.rd off).size = 2 := rfl

theorem Access.supported_iff (a : Access) : a.supported = true ↔ a.size = 2 ∧ a.addr.toNat % 4 = 0 := by
  simp [Access.supported]

theorem Access.wr_supported {off : BitVec 14} (v : Word) (h : off.toNat % 4 = 0) : (Access.wr off v).supported = true :=
  (Access.supported_iff _).mpr ⟨rfl, h⟩

theorem Access.rd_supported {off : BitVec 14} (h : off.toNat % 4 = 0) : (Access.rd off).supported = true :=
  (Access.supported_iff _).mpr ⟨rfl, h⟩

/-- In reset an access is ignored (R230). -/
theorem hostAccess_inReset {a : Access} {s : State} (h : s.rstN = false) :
    hostAccess a s = s.respond ⟨a.zeroData, none⟩ := if_pos h

/-- An unsupported access answers `bus_err` and changes nothing (R62). -/
theorem hostAccess_unsupported {a : Access} {s : State} (h : s.rstN = true) (ha : a.supported = false) :
    hostAccess a s = s.respond ⟨a.zeroData, some .busErr⟩ := by
  unfold hostAccess
  rw [if_neg (by simp [h]), if_pos ha]

/-- A supported write, out of reset. -/
theorem hostAccess_write {a : Access} {s : State} (h : s.rstN = true) (ha : a.supported = true) (hw : a.we = true) :
    hostAccess a s = (hostWrite (locate s.params a.addr.toNat) a.wdata s).respond ⟨none, none⟩ := by
  unfold hostAccess
  rw [if_neg (by simp [h]), if_neg (by simp [ha]), if_pos hw]

/-- A supported read, out of reset. -/
theorem hostAccess_read {a : Access} {s : State} (h : s.rstN = true) (ha : a.supported = true) (hw : a.we = false) :
    hostAccess a s = hostRead (locate s.params a.addr.toNat) s := by
  unfold hostAccess
  rw [if_neg (by simp [h]), if_neg (by simp [ha]), if_neg (by simp [hw])]

/-- What a read does: the answer, and one more free value at most (R64, R67). -/
theorem hostRead_frame (l : Loc) (s : State) :
    hostRead l s = { s with resp := (hostRead l s).resp, freeCount := (hostRead l s).freeCount } := by
  unfold hostRead
  split <;> rfl

/-- Everything one access can do: it is ignored in reset, or answers `bus_err`, or reads, or writes a location while
BUSY, or writes one while idle. -/
theorem hostAccess_cases (a : Access) (s : State) :
    (∃ r, hostAccess a s = s.respond r ∧ (s.rstN = false ∨ a.supported = false))
      ∨ (s.rstN = true ∧ a.supported = true ∧ a.we = false
          ∧ hostAccess a s = hostRead (locate s.params a.addr.toNat) s)
      ∨ (s.rstN = true ∧ a.supported = true ∧ a.we = true ∧ s.busy = true
          ∧ hostAccess a s = (writeBusy (locate s.params a.addr.toNat) a.wdata s).respond ⟨none, none⟩)
      ∨ (s.rstN = true ∧ a.supported = true ∧ a.we = true ∧ s.busy = false
          ∧ hostAccess a s = (writeIdle (locate s.params a.addr.toNat) a.wdata s).respond ⟨none, none⟩) := by
  by_cases h : s.rstN = true
  swap
  · have h' : s.rstN = false := by simpa using h
    exact .inl ⟨_, hostAccess_inReset h', .inl h'⟩
  by_cases ha : a.supported = true
  swap
  · have ha' : a.supported = false := by simpa using ha
    exact .inl ⟨_, hostAccess_unsupported h ha', .inr ha'⟩
  cases hw : a.we with
  | false => exact .inr (.inl ⟨h, ha, rfl, hostAccess_read h ha hw⟩)
  | true =>
    have e := hostAccess_write h ha hw
    unfold hostWrite at e
    cases hb : s.busy with
    | true => exact .inr (.inr (.inl ⟨h, ha, rfl, rfl, by rw [e, hb, if_pos rfl]⟩))
    | false => exact .inr (.inr (.inr ⟨h, ha, rfl, rfl, by rw [e, hb, if_neg (by decide)]⟩))

/-- Everything a write can do while BUSY = 1 (R66). -/
theorem writeBusy_cases (p : Params) (a : Nat) (v : Word) (s : State) :
    (a = 0x1408 ∧ writeBusy (locate p a) v s = s.writeCtrl v)
      ∨ (a = 0x140C ∧ writeBusy (locate p a) v s = s.writeStatus v)
      ∨ (a ≠ 0x1408 ∧ a ≠ 0x140C ∧ writeBusy (locate p a) v s = { s with werr := true }) := by
  unfold writeBusy
  by_cases h1 : a = 0x1408
  · exact .inl ⟨h1, if_pos (locate_eq_ctrl.mpr h1)⟩
  rw [if_neg (fun h => h1 (locate_eq_ctrl.mp h))]
  by_cases h2 : a = 0x140C
  · exact .inr (.inl ⟨h2, if_pos (locate_eq_status.mpr h2)⟩)
  · exact .inr (.inr ⟨h1, h2, if_neg (fun h => h2 (locate_eq_status.mp h))⟩)

/-- A write while BUSY = 1 never touches an operand, a result, or the in-flight command (R66, R72). -/
theorem writeBusy_frame (l : Loc) (v : Word) (s : State) :
    writeBusy l v s = { s with
      ie := (writeBusy l v s).ie, done := (writeBusy l v s).done, werr := (writeBusy l v s).werr } := by
  unfold writeBusy
  split
  · rfl
  · split <;> rfl

/-- Everything a write can do while BUSY = 0: an acceptance, a write of CTRL or STATUS, an operand register, a RAM word,
or nothing (R21, R63, R111). -/
theorem writeIdle_cases (l : Loc) (v : Word) (s : State) :
    (l = .reg .cmd ∧ writeIdle l v s = s.accept v)
      ∨ (l ≠ .reg .cmd ∧ writeIdle l v s = { s with
          ie := (writeIdle l v s).ie, done := (writeIdle l v s).done, werr := (writeIdle l v s).werr
          nrounds := (writeIdle l v s).nrounds, len := (writeIdle l v s).len, iv := (writeIdle l v s).iv
          blkIn := (writeIdle l v s).blkIn, mem := (writeIdle l v s).mem }) := by
  cases l with
  | reg r => cases r <;> first | exact .inl ⟨rfl, rfl⟩ | exact .inr ⟨by decide, rfl⟩
  | sbox t e => exact .inr ⟨by simp, rfl⟩
  | key i => exact .inr ⟨by simp, rfl⟩
  | msgWord w => exact .inr ⟨by simp, rfl⟩
  | reserved => exact .inr ⟨by simp, rfl⟩

/-- WERR after a write while BUSY = 0: cleared by a write of STATUS with bit 3, else kept (R29). -/
theorem writeIdle_werr (l : Loc) (v : Word) (s : State) :
    (writeIdle l v s).werr = if l = .reg .status ∧ v.getLsbD 3 = true then false else s.werr := by
  cases l with
  | reg r => cases r <;> simp [writeIdle, writeReg]
  | sbox t e => simp [writeIdle]
  | key i => simp [writeIdle]
  | msgWord w => simp [writeIdle]
  | reserved => simp [writeIdle]

/-- An idle write keeps the RAMs in canonical form (R20, R63). -/
theorem writeIdle_wf {s : State} {a : Nat} (hp : s.params.legal) (h4 : a % 4 = 0) (ha : a < 0x4000) (v : Word)
    (h : s.mem.wf s.params) : (writeIdle (locate s.params a) v s).mem.wf s.params := by
  rcases locate_cases hp ha with hi | ⟨r, hr, e, -⟩ | ⟨e, -, -⟩
  · rw [(locate_implemented hp h4 hi).2.1]
    refine setWord_wf _ h fun i hi4 => ?_
    unfold implemented at hi ⊢
    simp only [Bool.or_eq_true, Bool.and_eq_true, decide_eq_true_eq] at hi ⊢
    have := hp.2.2.1
    omega
  · rw [e]
    cases r <;> exact h
  · rw [e]
    exact h

/-! ### An access does not see the agenda -/

theorem readLoc_putAgenda (l : Loc) (es : List Event) (s : State) : readLoc l (s.putAgenda es) = readLoc l s := by
  cases l with
  | reg r => cases r <;> rfl
  | sbox t e => rfl
  | key i => rfl
  | msgWord w => rfl
  | reserved => rfl

/-- The answer on the bus is no location of the window. -/
theorem readLoc_respond (l : Loc) (r : Response) (s : State) : readLoc l (s.respond r) = readLoc l s := by
  cases l with
  | reg r => cases r <;> rfl
  | sbox t e => rfl
  | key i => rfl
  | msgWord w => rfl
  | reserved => rfl

theorem hostWrite_putAgenda (l : Loc) (v : Word) (es : List Event) (s : State) :
    hostWrite l v (s.putAgenda es) = (hostWrite l v s).putAgenda es := by
  unfold hostWrite
  rw [State.putAgenda_busy]
  split
  · unfold writeBusy
    split
    · rfl
    · split <;> rfl
  · cases l with
    | reg r => cases r <;> rfl
    | sbox t e => rfl
    | key i => rfl
    | msgWord w => rfl
    | reserved => rfl

/-- An access does the same whatever stands on the agenda after it. -/
theorem hostAccess_putAgenda (a : Access) (es : List Event) (s : State) :
    hostAccess a (s.putAgenda es) = (hostAccess a s).putAgenda es := by
  rcases Bool.eq_false_or_eq_true s.rstN with h | h
  swap
  · rw [hostAccess_inReset h, hostAccess_inReset (s := s.putAgenda es) h]
    rfl
  rcases Bool.eq_false_or_eq_true a.supported with ha | ha
  swap
  · rw [hostAccess_unsupported h ha, hostAccess_unsupported (s := s.putAgenda es) h ha]
    rfl
  rcases Bool.eq_false_or_eq_true a.we with hw | hw
  · rw [hostAccess_write h ha hw, hostAccess_write (s := s.putAgenda es) h ha hw, State.putAgenda_params,
      hostWrite_putAgenda]
    rfl
  · rw [hostAccess_read h ha hw, hostAccess_read (s := s.putAgenda es) h ha hw, State.putAgenda_params]
    unfold hostRead
    rw [State.putAgenda_busy, readLoc_putAgenda]
    split <;> rfl

/-! ### The writes with side effects, and STATUS bit by bit -/

/-- A write of CMD while BUSY = 0 is an acceptance (R111). -/
theorem hostAccess_wr_cmd {s : State} (h : s.rstN = true) (hb : s.busy = false) (w : Word) :
    hostAccess (Access.wr 0x1410 w) s = (s.accept w).respond ⟨none, none⟩ := by
  rw [hostAccess_write h (Access.wr_supported w (by decide)) rfl]
  have e : locate s.params (Access.wr 0x1410 w).addr.toNat = .reg .cmd := locate_eq_cmd.mpr rfl
  unfold hostWrite
  rw [if_neg (by simp [hb]), e]
  rfl

/-- A write of STATUS, BUSY or not (R27, R29, R66). -/
theorem hostAccess_wr_status {s : State} (h : s.rstN = true) (v : Word) :
    hostAccess (Access.wr 0x140C v) s = (s.writeStatus v).respond ⟨none, none⟩ := by
  rw [hostAccess_write h (Access.wr_supported v (by decide)) rfl]
  have e : locate s.params (Access.wr 0x140C v).addr.toNat = .reg .status := locate_eq_status.mpr rfl
  unfold hostWrite
  rw [e]
  split <;> rfl

/-- A write of CTRL, BUSY or not (R24, R66). -/
theorem hostAccess_wr_ctrl {s : State} (h : s.rstN = true) (v : Word) :
    hostAccess (Access.wr 0x1408 v) s = (s.writeCtrl v).respond ⟨none, none⟩ := by
  rw [hostAccess_write h (Access.wr_supported v (by decide)) rfl]
  have e : locate s.params (Access.wr 0x1408 v).addr.toNat = .reg .ctrl := locate_eq_ctrl.mpr rfl
  unfold hostWrite
  rw [e]
  split <;> rfl

/-- Each bit of STATUS (R25). -/
theorem status_getLsbD (s : State) (i : Nat) :
    s.status.getLsbD i
      = if i = 0 then s.busy else if i = 1 then s.done else if i = 2 then s.valid else if i = 3 then s.werr
        else if 8 ≤ i ∧ i < 12 then s.err.code.getLsbD (i - 8) else false := by
  by_cases hi : i < 32
  swap
  · rw [BitVec.getLsbD_of_ge _ _ (by omega)]
    rw [if_neg (by omega), if_neg (by omega), if_neg (by omega), if_neg (by omega), if_neg (by omega)]
  unfold State.status
  simp only [BitVec.getLsbD_append]
  interval_cases i <;> simp

end Sys2Proof.Machine
end

