-- ==== Sys2Proof/Laws/Step.lean ====
section
/-! SUPPORT. Once for all: what one step can do. -/

namespace Sys2Proof.Machine

/-- The state in which the engine's step completes the in-flight command. -/
def completion (s : State) : State :=
  match decode s.cmd with
  | .ok i => effect i s.atAcceptance.startCommand
  | .error _ => s.complete .illegalCmd

/-- The engine's step always completes (R112). -/
theorem engineStep_eq (s : State) : engineStep s = .next (completion s) := by
  unfold engineStep completion State.fetch
  cases decode s.cmd with
  | ok i => exact exec_eq_effect ..
  | error e => rfl

theorem engineTurn_enabled {s : State} (hr : s.rstN = true) (hb : s.busy = true) :
    engineTurn s = .next (completion s) := by
  unfold engineTurn State.engineEnabled
  rw [hr, hb, if_pos (by rfl)]
  exact engineStep_eq s

theorem engineTurn_disabled {s : State} (h : s.rstN = false ∨ s.busy = false) : engineTurn s = .next s := by
  unfold engineTurn State.engineEnabled
  rcases h with h | h <;> rw [h] <;> simp

/-- An access keeps the pin `rst_n`. -/
@[simp] theorem hostAccess_rstN (a : Access) (s : State) : (hostAccess a s).rstN = s.rstN := by
  rcases hostAccess_cases a s with ⟨r, e, -⟩ | ⟨-, -, -, e⟩ | ⟨-, -, -, -, e⟩ | ⟨-, -, -, -, e⟩ <;> rw [e]
  · rfl
  · rw [hostRead_frame]
  · rw [writeBusy_frame]; rfl
  · rcases writeIdle_cases (locate s.params a.addr.toNat) a.wdata s with ⟨-, e⟩ | ⟨-, e⟩ <;> rw [e] <;> rfl

/-- An access while BUSY leaves everything but CTRL, DONE, WERR, the answer and the count of free values (R66, R67). -/
theorem hostAccess_busy_frame {a : Access} {s : State} (hb : s.busy = true) :
    hostAccess a s = { s with
      ie := (hostAccess a s).ie, done := (hostAccess a s).done, werr := (hostAccess a s).werr
      resp := (hostAccess a s).resp, freeCount := (hostAccess a s).freeCount } := by
  rcases hostAccess_cases a s with ⟨r, e, -⟩ | ⟨-, -, -, e⟩ | ⟨-, -, -, -, e⟩ | ⟨-, -, -, hb', -⟩
  · rw [e]; rfl
  · rw [e, hostRead_frame]
  · rw [e, writeBusy_frame]; rfl
  · rw [hb] at hb'; cases hb'

theorem engineEnabled_iff (s : State) : s.engineEnabled = true ↔ s.rstN = true ∧ s.busy = true := by
  simp [State.engineEnabled]

/-- The engine's turn: a completion if a command is in flight, else nothing. -/
theorem engineTurn_eq (s : State) :
    engineTurn s = .next (if s.rstN = true ∧ s.busy = true then completion s else s) := by
  by_cases h : s.rstN = true ∧ s.busy = true
  · rw [if_pos h, engineTurn_enabled h.1 h.2]
  · rw [if_neg h]
    exact engineTurn_disabled (by cases h1 : s.rstN <;> cases h2 : s.busy <;> simp_all)

/-- R211: the access, then the completion of a command that was in flight before it. -/
theorem handle_accessWithCompletion (a : Access) (s : State) :
    handle (.accessWithCompletion a) s
      = .next (if s.rstN = true ∧ s.busy = true then completion (hostAccess a s) else hostAccess a s) := by
  show (if s.engineEnabled then engineTurn (hostAccess a s) else .next (hostAccess a s)) = _
  by_cases h : s.rstN = true ∧ s.busy = true
  · rw [if_pos h, if_pos ((engineEnabled_iff s).mpr h)]
    refine engineTurn_enabled (by rw [hostAccess_rstN]; exact h.1) ?_
    rw [hostAccess_busy_frame h.2]
    exact h.2
  · rw [if_neg h, if_neg fun h' => h ((engineEnabled_iff s).mp h')]

/-- The state an event leads to. `handle_eq` says that this is `handle`. -/
def after (e : Event) (s : State) : State :=
  match e with
  | .access a => hostAccess a s
  | .engine => if s.rstN = true ∧ s.busy = true then completion s else s
  | .accessWithCompletion a =>
    if s.rstN = true ∧ s.busy = true then completion (hostAccess a s) else hostAccess a s
  | .resetEdge => resetEdge s
  | .releaseReset => releaseReset s
  | .powerOn => powerOn s

/-- Every event leads to a next state. -/
theorem handle_eq (e : Event) (s : State) : handle e s = .next (after e s) := by
  cases e with
  | access a => rfl
  | resetEdge => rfl
  | releaseReset => rfl
  | powerOn => rfl
  | engine => exact engineTurn_eq s
  | accessWithCompletion a => exact handle_accessWithCompletion a s

/-- A step with an event on the agenda. -/
theorem step_cons {s : State} {e : Event} {rest : List Event} (h : s.agenda = e :: rest) :
    step s = .next (after e (s.putAgenda rest)) := by
  unfold step advance
  rw [h]
  exact handle_eq ..

/-- A step with nothing on the agenda: the engine's turn. -/
theorem step_nil {s : State} (h : s.agenda = []) :
    step s = .next (if s.rstN = true ∧ s.busy = true then completion s else s) := by
  unfold step advance
  rw [h]
  exact engineTurn_eq s

/-- Everything one step can do. -/
theorem step_cases {s t : State} (h : step s = .next t) :
    (s.agenda = [] ∧ s.rstN = true ∧ s.busy = true ∧ t = completion s)
      ∨ (s.agenda = [] ∧ (s.rstN = false ∨ s.busy = false) ∧ t = s)
      ∨ ∃ e rest, s.agenda = e :: rest ∧ t = after e (s.putAgenda rest) := by
  cases hag : s.agenda with
  | nil =>
    rw [step_nil hag] at h
    cases h
    by_cases hc : s.rstN = true ∧ s.busy = true
    · exact .inl ⟨rfl, hc.1, hc.2, if_pos hc⟩
    · refine .inr (.inl ⟨rfl, ?_, if_neg hc⟩)
      cases h1 : s.rstN <;> cases h2 : s.busy <;> simp_all
  | cons e rest =>
    rw [step_cons hag] at h
    cases h
    exact .inr (.inr ⟨e, rest, rfl, rfl⟩)

/-- A step that is an aligned word read (R60, R64). -/
theorem step_rd {s : State} {off : BitVec 14} {rest : List Event} (hr : s.rstN = true) (h4 : off.toNat % 4 = 0)
    (h : s.agenda = .access (Access.rd off) :: rest) :
    step s = .next (hostRead (locate s.params off.toNat) (s.putAgenda rest)) := by
  rw [step_cons h]
  simp only [after]
  rw [hostAccess_read (by exact hr) (Access.rd_supported h4) rfl]
  rfl

/-- A step that is an aligned word write (R60). -/
theorem step_wr {s : State} {off : BitVec 14} {v : Word} {rest : List Event} (hr : s.rstN = true)
    (h4 : off.toNat % 4 = 0) (h : s.agenda = .access (Access.wr off v) :: rest) :
    step s = .next ((hostWrite (locate s.params off.toNat) v (s.putAgenda rest)).respond ⟨none, none⟩) := by
  rw [step_cons h]
  simp only [after]
  rw [hostAccess_write (by exact hr) (Access.wr_supported v h4) rfl]
  rfl

/-! ### What a completion keeps -/

/-- A completion writes none of the registers the host writes, whatever the command. -/
theorem completion_frame (s : State) :
    (completion s).params = s.params ∧ (completion s).rstN = s.rstN ∧ (completion s).ie = s.ie
      ∧ (completion s).busy = false ∧ (completion s).done = true ∧ (completion s).werr = s.werr
      ∧ (completion s).cmd = s.cmd ∧ (completion s).snap = s.snap ∧ (completion s).resp = s.resp
      ∧ (completion s).agenda = s.agenda ∧ (completion s).freeCount = s.freeCount := by
  unfold completion
  cases decode s.cmd with
  | error e => simp
  | ok i =>
    cases i <;> simp only [effect] <;> repeat' split
    all_goals simp [encodeBuffer, decodeBuffer]

/-- The answer of the bus and the count of free values do not matter to a completion's result. -/
theorem completion_valid_of_ne_padCheck {s : State} (h : decode s.cmd ≠ .ok .padCheck) :
    (completion s).valid = s.valid := by
  unfold completion
  cases hd : decode s.cmd with
  | error e => rfl
  | ok i =>
    rw [hd] at h
    cases i <;> first
      | exact absurd rfl h
      | (simp only [effect]; (repeat' split) <;> simp [encodeBuffer, decodeBuffer])

/-! ### Runs -/

theorem core_run_zero (s : State) : Sys2Proof.core.run 0 s = .next s := rfl

/-- A run goes on from the state its first step answers. -/
theorem core_run_succ {k : Nat} {s t : State} (h : step s = .next t) :
    Sys2Proof.core.run (k + 1) s = Sys2Proof.core.run k t := by
  have h' : Sys2Proof.core.step s = .next t := h
  simp only [Host.Core.run, h']

end Sys2Proof.Machine
end

