-- ==== Sys2Proof/Tests/Slice0.lean ====
section
/-! SUPPORT. Tests: expected results are from 95_test_vectors.md and the rules' own examples, named in each docstring;
and, for each obligation with hypotheses, a state that meets them. -/

namespace Sys2Proof.Tests

open Sys2Proof Sys2Proof.Machine

/-! ### Small states -/

/-- The cells of one table that hold the listed entries. -/
def tableCells (f : Nat → Nat → Word) (t : Nat) (entries : List Nat) : List Host.Cell :=
  entries.flatMap fun e => (List.range 4).map fun j => (0x400 * t + 4 * e + j, byteOf (f t e) j)

/-- The cells of the listed entries of the four tables. -/
def tables (f : Nat → Nat → Word) (e0 e1 e2 e3 : List Nat) : List Host.Cell :=
  tableCells f 0 e0 ++ tableCells f 1 e1 ++ tableCells f 2 e2 ++ tableCells f 3 e3

/-- The cells of successive words from an offset on. -/
def wordCells : Nat → List Word → List Host.Cell
  | _, [] => []
  | a, w :: rest => (List.range 4).map (fun j => (a + j, byteOf w j)) ++ wordCells (a + 4) rest

/-- Table TA of 95_test_vectors.md, section 2. -/
def ta (t e : Nat) : Word := BitVec.ofNat 32 (0x9E3779B9 * (256 * t + e + 1))

/-- Table TI of 95_test_vectors.md, section 2. -/
def ti (t e : Nat) : Word := BitVec.ofNat 32 (e * 256 ^ t)

/-- The entries of TA that F10 reads. -/
def tableF10 : List Host.Cell :=
  tables ta [64, 68, 87, 144] [26, 41, 70, 84] [35, 100, 185, 242] [116, 135, 215, 241]

/-- The entries of TA that B13, B15 and B9 reads. -/
def tableB13 : List Host.Cell :=
  tables ta [13, 16, 96, 100] [57, 65, 124, 167] [1, 50, 113, 226] [7, 31, 40, 91]

/-- The entries of TA that B14 and B16 reads. -/
def tableB14 : List Host.Cell :=
  tables ta [53, 107, 120, 126] [93, 120, 178, 245] [39, 111, 200, 240] [8, 44, 134, 231]

/-- The entries of TA that V1 and V2 reads. -/
def tableV1 : List Host.Cell :=
  tables ta [30, 35, 68, 219] [51, 57, 142, 229] [9, 17, 46, 178] [41, 194, 239, 254]

/-- The entries of TA that B5 reads. -/
def tableB5 : List Host.Cell :=
  tables ta [70, 76, 120, 176] [92, 126, 226, 240] [106, 107, 108, 242] [80, 124, 157, 215]

/-- The entries of TA that B6 reads. -/
def tableB6 : List Host.Cell :=
  tables ta [1, 55, 104, 123, 140, 153, 162, 207] [7, 18, 45, 97, 154, 177, 209]
    [10, 12, 35, 84, 173, 188, 209, 214] [9, 60, 84, 127, 134, 143, 148, 229]

/-- Keys KA of 95_test_vectors.md, section 2. -/
def ka : List Word := [0x03020100, 0x07060504, 0x0B0A0908, 0x0F0E0D0C]

/-- IVA of 95_test_vectors.md, section 2. -/
def iva : Block := ⟨0x33221100, 0x77665544⟩

/-- The reset state with a table, keys KA, N = 4, IV = IVA, and words in the message buffer. -/
def cipher (table : List Host.Cell) (msg : List Word) : State :=
  { State.reset with
    mem := ⟨table ++ wordCells 0x1000 ka ++ wordCells 0x2000 msg, 0, 0⟩, nrounds := 4, iv := iva }

/-- The state an outcome goes on in. -/
def nextOf : Host.Outcome State Fault Refusal → Option State
  | .next t => some t
  | .fault _ => none
  | .refused _ => none

/-! ### Well-formed commands, and decoding (R90 to R93; C2 to C11) -/

/-- KIDX is 8 bits. -/
theorem smoke_wellFormed_refuses : (Instr.rfEval 256).wellFormed = false := by decide

theorem smoke_wellFormed_accepts : (Instr.rfEval 255).wellFormed = true := by decide

/-! Each word bit by bit: bits [31:16], KIDX, bits [7:5], S, OP (R90). -/

theorem test_decode_nop : decode (0#16 ++ 0b00000000#8 ++ 0b000#3 ++ 0b0#1 ++ 0b0000#4) = .ok .nop := rfl
theorem test_decode_ecbEnc : decode (0#16 ++ 0b00000000#8 ++ 0b000#3 ++ 0b0#1 ++ 0b0001#4) = .ok .ecbEnc := rfl
theorem test_decode_ecbDec : decode (0#16 ++ 0b00000000#8 ++ 0b000#3 ++ 0b0#1 ++ 0b0010#4) = .ok .ecbDec := rfl
theorem test_decode_rfEval : decode (0#16 ++ 0b11111111#8 ++ 0b000#3 ++ 0b0#1 ++ 0b0011#4) = .ok (.rfEval 255) := rfl
theorem test_decode_cbcEncBlk : decode (0#16 ++ 0b00000000#8 ++ 0b000#3 ++ 0b1#1 ++ 0b0100#4) = .ok (.cbcEncBlk .iv) := rfl
theorem test_decode_cbcDecBlk : decode (0#16 ++ 0b00000000#8 ++ 0b000#3 ++ 0b0#1 ++ 0b0101#4) = .ok (.cbcDecBlk .chain) := rfl
theorem test_decode_padCheck : decode (0#16 ++ 0b00000000#8 ++ 0b000#3 ++ 0b0#1 ++ 0b0110#4) = .ok .padCheck := rfl
theorem test_decode_cbcEnc : decode (0#16 ++ 0b00000000#8 ++ 0b000#3 ++ 0b0#1 ++ 0b0111#4) = .ok .cbcEnc := rfl
theorem test_decode_cbcDecRaw : decode (0#16 ++ 0b00000000#8 ++ 0b000#3 ++ 0b0#1 ++ 0b1000#4) = .ok .cbcDecRaw := rfl
theorem test_decode_cbcDec : decode (0#16 ++ 0b00000000#8 ++ 0b000#3 ++ 0b0#1 ++ 0b1001#4) = .ok .cbcDec := rfl

/-- C2 to C9: the illegal words. -/
theorem test_decode_illegal :
    decode 0x0000000A = .error .reservedOp ∧ decode 0x0000000F = .error .reservedOp
      ∧ decode 0x00000011 = .error .straySelect ∧ decode 0x00000113 = .error .straySelect
      ∧ decode 0x00000101 = .error .strayKeyIndex ∧ decode 0x00010000 = .error .highReserved
      ∧ decode 0x00000027 = .error .lowReserved ∧ decode 0x00000016 = .error .straySelect :=
  ⟨rfl, rfl, rfl, rfl, rfl, rfl, rfl, rfl⟩

theorem test_decodeTableWord : decodeTableWord 32 0x0000FF03 = some (.rfEval 255) ∧ decodeTableWord 8 0x06 = some .padCheck := by
  decide

/-! ### Commands, one step each -/

/-- C1. -/
theorem test_nop_clears_err :
    (nextOf (exec .nop { State.reset with done := true, err := .badLen })).map State.status = some 0x00000002 := by
  decide +kernel

/-- F10. -/
theorem test_ecbEnc_f10 :
    (nextOf (exec .ecbEnc { cipher tableF10 []
      with blkIn := iva })).map (fun t => (t.blkOut, t.status)) = some (⟨0xD8B7179C, 0xF7136261⟩, 0x00000002) := by
  decide +kernel

/-- F17: NROUNDS = 0. -/
theorem test_ecbEnc_no_rounds :
    (nextOf (exec .ecbEnc { State.reset with blkOut := ⟨7, 8⟩ })).map (fun t => (t.blkOut, t.status))
      = some (⟨7, 8⟩, 0x00000202) := by
  decide +kernel

/-- F10, backwards. -/
theorem test_ecbDec_f10 :
    (nextOf (exec .ecbDec { cipher tableF10 []
      with blkIn := ⟨0xD8B7179C, 0xF7136261⟩ })).map (·.blkOut) = some iva := by
  decide +kernel

/-- F16: TI, N = 1, KEY[0] = 0x0F0F_0F0F. -/
theorem test_ecbDec_f16 :
    (nextOf (exec .ecbDec { State.reset with
      mem := ⟨tables ti [0x1F] [0x0F] [0x0F] [0x0F] ++ wordCells 0x1000 [0x0F0F0F0F], 0, 0⟩, nrounds := 1
      blkIn := ⟨0x00000010, 0x0F0F0F1E⟩ })).map (·.blkOut) = some ⟨0x00000001, 0x00000010⟩ := by
  decide +kernel

/-- R4. -/
theorem test_rfEval_r4 :
    (nextOf (exec (.rfEval 0) { cipher (tables ta [0] [16] [32] [48]) []
      with nrounds := 0, blkIn := ⟨0, 0x33221100⟩ })).map (·.rfOut) = some 0x7285E244 := by
  decide +kernel

/-- R11: KEY_DEPTH = 16. -/
theorem test_rfEval_r11 :
    (nextOf (exec (.rfEval 16) { State.reset with params := ⟨16, 1024⟩, rfOut := 5 })).map (fun t => (t.rfOut, t.status))
      = some (5, 0x00000502) := by
  decide +kernel

/-- B13. -/
theorem test_cbcEncBlk_b13 :
    (nextOf (exec (.cbcEncBlk .iv) { cipher tableB13 []
      with blkIn := ⟨0x74736554, 0x73656D20⟩ })).map (fun t => (t.blkOut, t.chain))
      = some (⟨0x547FAA6C, 0x8BA67C47⟩, ⟨0x547FAA6C, 0x8BA67C47⟩) := by
  decide +kernel

/-- B14. -/
theorem test_cbcEncBlk_b14 :
    (nextOf (exec (.cbcEncBlk .chain) { cipher tableB14 []
      with blkIn := ⟨0x65676173, 0x6F6C202C⟩, chain := ⟨0x547FAA6C, 0x8BA67C47⟩ })).map (fun t => (t.blkOut, t.chain))
      = some (⟨0x07FE7572, 0x7556A4AF⟩, ⟨0x07FE7572, 0x7556A4AF⟩) := by
  decide +kernel

/-- B15. -/
theorem test_cbcDecBlk_b15 :
    (nextOf (exec (.cbcDecBlk .iv) { cipher tableB13 []
      with blkIn := ⟨0x547FAA6C, 0x8BA67C47⟩ })).map (fun t => (t.blkOut, t.chain))
      = some (⟨0x74736554, 0x73656D20⟩, ⟨0x547FAA6C, 0x8BA67C47⟩) := by
  decide +kernel

/-- B16. -/
theorem test_cbcDecBlk_b16 :
    (nextOf (exec (.cbcDecBlk .chain) { cipher tableB14 []
      with blkIn := ⟨0x07FE7572, 0x7556A4AF⟩, chain := ⟨0x547FAA6C, 0x8BA67C47⟩ })).map (fun t => (t.blkOut, t.chain))
      = some (⟨0x65676173, 0x6F6C202C⟩, ⟨0x07FE7572, 0x7556A4AF⟩) := by
  decide +kernel

/-- V1. -/
theorem test_padCheck_v1 :
    (nextOf (exec .padCheck { cipher tableV1 []
      with iv := ⟨0xCCBB8541, 0x2B2541B0⟩, blkIn := ⟨0xF1BCE812, 0x2D7FF741⟩ })).map State.status = some 0x00000006 := by
  decide +kernel

/-- V2: padding bytes that differ. -/
theorem test_padCheck_v2 :
    (nextOf (exec .padCheck { cipher tableV1 []
      with iv := ⟨0xCCBB8541, 0x292541B0⟩, blkIn := ⟨0xF1BCE812, 0x2D7FF741⟩ })).map State.status = some 0x00000002 := by
  decide +kernel

/-- B6: two blocks, a whole block of padding. -/
theorem test_cbcEnc_b6 :
    (nextOf (exec .cbcEnc { cipher tableB6 [0x44434241, 0x48474645]
      with len := 8 })).map (fun t => (t.mem.block 0, t.mem.block 1, t.chain, t.outLen))
      = some (⟨0x70D89764, 0x84DBD8AA⟩, ⟨0x9BA3BCC3, 0xFED84B7D⟩, ⟨0x9BA3BCC3, 0xFED84B7D⟩, 16) := by
  decide +kernel

/-- B4b. -/
theorem test_cbcEnc_b4b :
    (nextOf (exec .cbcEnc { cipher [] [] with len := 1024, outLen := 3 })).map (fun t => (t.outLen, t.status))
      = some (3, 0x00000302) := by
  decide +kernel

/-- B6, backwards and without padding removal: the feedback is the saved ciphertext. -/
theorem test_cbcDecRaw_b6 :
    (nextOf (exec .cbcDecRaw { cipher tableB6
        [0x70D89764, 0x84DBD8AA, 0x9BA3BCC3, 0xFED84B7D]
      with len := 16 })).map (fun t => (t.mem.block 0, t.mem.block 1, t.chain, t.outLen))
      = some (⟨0x44434241, 0x48474645⟩, ⟨0x08080808, 0x08080808⟩, ⟨0x9BA3BCC3, 0xFED84B7D⟩, 16) := by
  decide +kernel

/-- B4d. -/
theorem test_cbcDecRaw_b4d :
    (nextOf (exec .cbcDecRaw { cipher [] [] with outLen := 3 })).map (fun t => (t.outLen, t.status))
      = some (3, 0x00000302) := by
  decide +kernel

/-- B5, backwards. -/
theorem test_cbcDec_b5 :
    (nextOf (exec .cbcDec { cipher tableB5
        [0x92FCEF4A, 0x9A211857] with len := 8, outLen := 3 })).map (fun t => (t.mem.block 0, t.outLen, t.status))
      = some (⟨0x08080808, 0x08080808⟩, 0, 0x00000002) := by
  decide +kernel

/-- B9: a last byte that is no padding length. -/
theorem test_cbcDec_b9 :
    (nextOf (exec .cbcDec { cipher tableB13
        [0x547FAA6C, 0x8BA67C47] with len := 8, outLen := 3 })).map (fun t => (t.mem.block 0, t.chain, t.outLen, t.status))
      = some (⟨0x74736554, 0x73656D20⟩, ⟨0x547FAA6C, 0x8BA67C47⟩, 0, 0x00000402) := by
  decide +kernel

/-! ### The shell -/

/-- An idle machine with an agenda. -/
def idle (es : List Event) : State := { State.reset with agenda := es }

/-- A machine with a word in flight and an agenda. -/
def inFlight (w : Word) (es : List Event) : State := { State.reset.accept w with agenda := es }

/-- A machine whose `rst_n` is 0. -/
def inReset : State := { State.reset with rstN := false }

/-- The state after some steps. -/
def afterSteps : Nat → State → Option State
  | 0, s => some s
  | k + 1, s => (nextOf (step s)).bind (afterSteps k)

/-- C9: an illegal word with OP 0x6 clears VALID at acceptance and completes with E_ILLEGAL_CMD. -/
theorem test_illegal_word_c9 :
    (afterSteps 2 { idle [.access (Access.wr 0x1410 0x16), .engine] with valid := true }).map (fun t => (t.status, t.cmd))
      = some (0x00000102, 0x16) := by
  decide +kernel

/-- R40: RF_EVAL and a failed PAD_CHECK reset stale counters. -/
theorem test_counters_restart :
    (afterSteps 1 { inFlight 0xFF03 [.engine] with roundCounter := 3, blockIndex := 5 }).map (fun t => (t.roundCounter, t.blockIndex))
      = some (0, 0)
      ∧ (afterSteps 1 { inFlight 0x6 [.engine] with roundCounter := 3, blockIndex := 5 }).map
        (fun t => (t.roundCounter, t.blockIndex, t.err)) = some (0, 0, .badNrounds) := by
  decide +kernel

/-- R66: a CMD write while BUSY = 1 is dropped and sets WERR; STATUS then reads BUSY and WERR (R25). -/
theorem test_write_while_busy :
    (afterSteps 2 (inFlight 0 [.access (Access.wr 0x1410 0x9), .access (Access.rd 0x140C)])).map (fun t => (t.cmd, t.resp))
      = some (0, some ⟨some 0x00000009, none⟩) := by
  decide +kernel

/-- R62: a halfword write answers `bus_err` and stores nothing. -/
theorem test_halfword_write :
    (afterSteps 1 (idle [.access ⟨true, 0x1418, 1, 5⟩])).map (fun t => (t.len, t.resp)) = some (0, some ⟨none, some .busErr⟩) := by
  decide +kernel

/-- R61: MSGW[0] is bytes 0 to 3, little-endian. -/
theorem test_msg_byte_order :
    (afterSteps 1 (idle [.access (Access.wr 0x2000 0x44434241)])).map (fun t => (t.mem.msg 0, t.mem.msg 3))
      = some (0x41, 0x44) := by
  decide +kernel

/-- R22, R23: ID and CFG of the reference configuration. -/
theorem test_id_cfg : readReg .id State.reset = 0x46434531 ∧ readReg .cfg State.reset = 0x04000100 := by decide

/-- R27, R210: a completion with IE = 1 raises `irq`, and a STATUS write with bit 1 lowers it. -/
theorem test_irq :
    (afterSteps 1 { inFlight 0 [.engine] with ie := true }).map State.irq = some true
      ∧ (afterSteps 2 { inFlight 0 [.engine, .access (Access.wr 0x140C 2)] with ie := true }).map State.irq = some false := by
  decide +kernel

/-- Offsets that are word aligned. -/
def aligned (l : List (BitVec 14)) : Bool := l.all fun off => decide (off.toNat % 4 = 0)

/-! ### The hypotheses of the obligations are met, at the ends of their ranges -/

theorem witness_DecodeOfEncodeGivesTheCommand :
    (Instr.rfEval 0).wellFormed = true ∧ (Instr.rfEval 255).wellFormed = true ∧ (Instr.cbcDecBlk .iv).wellFormed = true := by
  decide

theorem witness_EncodeOfDecodeGivesTheWord :
    decode 0x0000FF03 = .ok (.rfEval 255) ∧ decode 0x00000015 = .ok (.cbcDecBlk .iv) := ⟨rfl, rfl⟩

theorem witness_DecodedCommandIsTheRowThatMatches : (⟨"RF_EVAL", 0x00000003, 0xFFFF00FF⟩ : OpcodeRow) ∈ opcodeRows := by
  decide

theorem witness_IllegalWordIsAcceptedAndCompletesWithError (i : Instr) :
    decode 0x16 ≠ .ok i ∧ decode 0xA ≠ .ok i ∧ (idle [.access (Access.wr 0x1410 0x16), .engine]).rstN = true
      ∧ (idle [.access (Access.wr 0x1410 0x16), .engine]).busy = false :=
  ⟨(nomatch ·), (nomatch ·), rfl, rfl⟩

theorem witness_StepRunsTheDecodedCommand :
    (inFlight 0x9 []).rstN = true ∧ (inFlight 0x9 []).busy = true ∧ decode (inFlight 0x9 []).cmd = .ok .cbcDec
      ∧ (inFlight 0x9 []).agenda = [] ∧ (inFlight 0x9 [.engine]).agenda = .engine :: [] := ⟨rfl, rfl, rfl, rfl, rfl⟩

theorem witness_InFlightOperandsAreTheLiveOnes : (inFlight 0x6 []).Inv ∧ (inFlight 0x6 []).busy = true := by decide

theorem witness_PlacedWordRunsNext :
    decodeTableWord 32 0x0000FF03 = some (.rfEval 255) ∧ decodeTableWord 8 0x00000106 = some .padCheck := by decide

/-- A command that runs no round with both counters stale, and a buffer command with NROUNDS = 0. -/
theorem witness_CountersRestartWithEveryCommand :
    (inFlight 0x0 [.engine]).rstN = true ∧ (inFlight 0x0 [.engine]).busy = true ∧ decode (inFlight 0x0 [.engine]).cmd = .ok .nop
      ∧ decode (inFlight 0x7 [.engine]).cmd = .ok .cbcEnc ∧ ¬ (inFlight 0x7 [.engine]).atAcceptance.roundsLegal
      ∧ (inFlight 0x7 [.engine]).agenda = .engine :: [] :=
  ⟨rfl, rfl, rfl, rfl, by decide, rfl⟩

theorem witness_SimultaneousAccessComesFirst :
    (inFlight 0x1 [.accessWithCompletion (Access.rd 0x1440)]).rstN = true
      ∧ (inFlight 0x1 [.accessWithCompletion (Access.rd 0x1440)]).busy = true
      ∧ (inFlight 0x1 [.accessWithCompletion (Access.rd 0x1440)]).agenda = .accessWithCompletion (Access.rd 0x1440) :: [] := by
  decide

theorem witness_AcceptedCommandCompletes :
    (inFlight 0x1 [.access (Access.rd 0x140C)]).rstN = true ∧ (inFlight 0x1 [.access (Access.rd 0x140C)]).busy = true
      ∧ ∀ e ∈ (inFlight 0x1 [.access (Access.rd 0x140C)]).agenda, e.isReset = false := by decide

theorem witness_HostTrafficCannotChangeACommandsResult :
    decode 0x7 = .ok .cbcEnc
      ∧ (idle (.access (Access.wr 0x1410 0x7) :: ([Access.wr 0x2000 1, Access.rd 0x2000].map Event.access ++ .engine :: []))).busy
        = false := ⟨rfl, rfl⟩

theorem witness_ResetClearsRegistersAndIgnoresAccesses :
    (inFlight 0x7 [.resetEdge]).agenda = .resetEdge :: [] ∧ (inFlight 0x7 [.powerOn]).agenda = .powerOn :: [] := by decide

/-- Each of the three buffer commands in flight; another command in flight; and nothing in flight. -/
theorem witness_ResetKeepsRamsButAnAbandonedBuffer :
    (inFlight 0x7 [.resetEdge]).agenda = .resetEdge :: [] ∧ (inFlight 0x7 [.resetEdge]).busy = true
      ∧ decode (inFlight 0x7 [.resetEdge]).cmd = .ok .cbcEnc ∧ decode (inFlight 0x8 [.resetEdge]).cmd = .ok .cbcDecRaw
      ∧ decode (inFlight 0x9 [.resetEdge]).cmd = .ok .cbcDec ∧ decode (inFlight 0x6 [.resetEdge]).cmd = .ok .padCheck
      ∧ (idle [.resetEdge]).busy = false := ⟨rfl, rfl, rfl, rfl, rfl, rfl, rfl⟩

theorem witness_PowerOnDrawsEveryRamByte : (idle [.powerOn]).agenda = .powerOn :: [] := rfl

/-- The invariant holds while idle, in flight and in reset. -/
theorem witness_EveryStepKeepsTheInvariant :
    (idle [.access (Access.wr 0x1410 0x6)]).Inv ∧ (inFlight 0x6 [.engine]).Inv ∧ inReset.Inv :=
  ⟨by decide, by decide, by decide⟩

/-- A byte, a reserved size and a misaligned word; and an aligned word. -/
theorem witness_UnsupportedAccessAnswersBusErr :
    ¬ ((⟨false, 0x1400, 0, 0⟩ : Access).size = 2 ∧ (0x1400 : BitVec 14).toNat % 4 = 0)
      ∧ ¬ ((⟨true, 0x1400, 3, 0⟩ : Access).size = 2 ∧ (0x1400 : BitVec 14).toNat % 4 = 0)
      ∧ ¬ ((⟨true, 0x3FFE, 2, 0⟩ : Access).size = 2 ∧ (0x3FFE : BitVec 14).toNat % 4 = 0)
      ∧ ((Access.rd 0x3FFC).size = 2 ∧ (Access.rd 0x3FFC).addr.toNat % 4 = 0)
      ∧ (idle [.access (Access.rd 0x3FFC)]).rstN = true := by decide

/-- CTRL, STATUS, their neighbours and the last offset. -/
theorem witness_WritesWhileBusyAreDropped :
    aligned [0x1404, 0x1408, 0x140C, 0x1410, 0x0000, 0x3FFC] = true
      ∧ (inFlight 0 [.access (Access.wr 0x1404 0)]).rstN = true ∧ (inFlight 0 [.access (Access.wr 0x1404 0)]).busy = true
      ∧ (inFlight 0 [.access (Access.wr 0x1404 0)]).agenda = .access (Access.wr 0x1404 0) :: [] := by decide +kernel

theorem witness_WriteOfCmdIsAcceptance :
    (idle [.access (Access.wr 0x1410 0x16)]).rstN = true ∧ (idle [.access (Access.wr 0x1410 0x16)]).busy = false
      ∧ (inFlight 0 [.access (Access.wr 0x1410 0x16)]).busy = true := by decide +kernel

theorem witness_WriteOfStatusClearsDoneAndWerrOnly :
    (idle [.access (Access.wr 0x140C 0xFFFFFFFF)]).rstN = true
      ∧ (idle [.access (Access.wr 0x140C 0xFFFFFFFF)]).agenda = .access (Access.wr 0x140C 0xFFFFFFFF) :: [] := by decide +kernel

/-- The first and last S-box, key and message words, a register and a reserved offset. -/
theorem witness_ReadReturnsTheWrittenBits :
    State.reset.params.legal ∧ State.reset.rstN = true ∧ State.reset.busy = false
      ∧ aligned [0x0000, 0x0FFC, 0x1000, 0x13FC, 0x1400, 0x1408, 0x1414, 0x1440, 0x1444, 0x2000, 0x23FC, 0x3FFC] = true
      ∧ (0x1408 : BitVec 14) ≠ 0x140C ∧ (0x1408 : BitVec 14) ≠ 0x1410 ∧ (0x1414 : BitVec 14) ≠ 0x1410 := by decide +kernel

theorem witness_WriteLeavesOtherLocations :
    State.reset.params.legal ∧ State.reset.rstN = true ∧ State.reset.busy = false
      ∧ aligned [0x0000, 0x0004, 0x13FC, 0x1400, 0x1420, 0x140C, 0x23FC, 0x2400] = true
      ∧ (0x1420 : BitVec 14) ≠ 0x140C ∧ (0x1420 : BitVec 14) ≠ 0x1410 ∧ (0x140C : BitVec 14) ≠ 0x1420
      ∧ (0x0004 : BitVec 14) ≠ 0x0000 ∧ (0x1400 : BitVec 14) ≠ 0x13FC := by decide +kernel

/-- The ends of the reserved ranges, with KEY_DEPTH = 16 and MSG_BYTES = 8. -/
theorem witness_ReservedOffsetsReadZeroIgnoreWrites :
    (⟨16, 8⟩ : Params).legal
      ∧ aligned [0x1040, 0x13FC, 0x1444, 0x1FFC, 0x2008, 0x3FFC] = true
      ∧ ([0x1040, 0x13FC, 0x1444, 0x1FFC, 0x2008, 0x3FFC].all fun a => decide (reservedOffset ⟨16, 8⟩ a)) = true := by decide +kernel

theorem witness_ReadsHaveNoSideEffect :
    (Access.rd 0x2000).we = false ∧ (inFlight 0 [.access (Access.rd 0x2000)]).agenda = .access (Access.rd 0x2000) :: [] := by
  decide +kernel

/-- The ends of the ranges R67 leaves unspecified, and their neighbours. -/
theorem witness_ReadsWhileBusy :
    (inFlight 0 []).params.legal ∧ (inFlight 0 []).rstN = true ∧ (inFlight 0 []).busy = true
      ∧ aligned [0x141C, 0x1430, 0x1440, 0x2000, 0x23FC, 0x1418, 0x1420, 0x142C, 0x1444, 0x1FFC, 0x2400] = true
      ∧ ([0x141C, 0x1430, 0x1440, 0x2000, 0x23FC].all fun a => decide (resultOffset ⟨256, 1024⟩ a)) = true
      ∧ ([0x1418, 0x1420, 0x142C, 0x1444, 0x1FFC, 0x2400].all fun a => decide (¬ resultOffset ⟨256, 1024⟩ a)) = true := by decide +kernel

theorem witness_IdAndCfgReadTheirConstants :
    (⟨1, 8⟩ : Params).legal ∧ (⟨256, 8192⟩ : Params).legal ∧ (idle [.access (Access.rd 0x1400)]).rstN = true
      ∧ (idle [.access (Access.rd 0x1404)]).agenda = .access (Access.rd 0x1404) :: [] := by decide +kernel

theorem witness_OperandsCannotChangeWhileBusy :
    (inFlight 0 [.access (Access.wr 0x1414 4)]).busy = true
      ∧ (inFlight 0 [.access (Access.wr 0x1414 4)]).agenda = .access (Access.wr 0x1414 4) :: [] := by decide

/-- An acceptance sets BUSY; a completion and a reset clear it. -/
theorem witness_BusyChangesOnlyByAcceptanceCompletionReset :
    (nextOf (step (idle [.access (Access.wr 0x1410 0)]))).map (·.busy) = some true
      ∧ (nextOf (step (inFlight 0 [.engine]))).map (·.busy) = some false
      ∧ (nextOf (step (inFlight 0 [.resetEdge]))).map (·.busy) = some false := by decide +kernel

/-- VALID changed by an acceptance, by a completion, by a reset. -/
theorem witness_ValidChangesOnlyByPadCheckOrReset :
    (nextOf (step { idle [.access (Access.wr 0x1410 0x6)] with valid := true })).map (·.valid) = some false
      ∧ (nextOf (step { cipher tableV1 []
          with iv := ⟨0xCCBB8541, 0x2B2541B0⟩, blkIn := ⟨0xF1BCE812, 0x2D7FF741⟩, cmd := 0x6, busy := true, snap := ⟨4, 0,
            ⟨0xCCBB8541, 0x2B2541B0⟩, ⟨0xF1BCE812, 0x2D7FF741⟩, Block.zero,
            (cipher tableV1 []).mem⟩ })).map (·.valid)
        = some true
      ∧ (nextOf (step { idle [.resetEdge] with valid := true })).map (·.valid) = some false := by decide +kernel

/-- WERR set by a dropped write; cleared by a STATUS write and by a reset. -/
theorem witness_WerrIsStickyUntilClearedByTheHost :
    (nextOf (step (inFlight 0 [.access (Access.wr 0x1404 0)]))).map (·.werr) = some true
      ∧ (nextOf (step { idle [.access (Access.wr 0x140C 8)] with werr := true })).map (·.werr) = some false
      ∧ (nextOf (step { idle [.resetEdge] with werr := true })).map (·.werr) = some false := by decide +kernel

/-- Each clause's own hypotheses. -/
theorem witness_IrqFollowsEnableAndDone :
    { inFlight 0 [.engine] with ie := true }.rstN = true ∧ { inFlight 0 [.engine] with ie := true }.busy = true
      ∧ { inFlight 0 [.engine] with ie := true }.ie = true ∧ (2 : Word).getLsbD 1 = true ∧ (2 : Word).getLsbD 0 = false
      ∧ (idle [.access (Access.wr 0x1410 0)]).busy = false ∧ (idle [.resetEdge]).agenda = .resetEdge :: [] := by decide

theorem witness_OnlyBufferCommandsWriteTheBuffer :
    State.reset.params.legal ∧ (nextOf (exec .nop State.reset)).isSome ∧ Instr.nop ≠ .cbcEnc ∧ Instr.nop ≠ .cbcDecRaw
      ∧ Instr.nop ≠ .cbcDec := by decide +kernel

/-- Each of the four registers changed by a command. -/
theorem witness_ResultRegistersHaveTheirWriters :
    (nextOf (exec (.cbcDecBlk .iv) { cipher tableB13 []
        with blkIn := ⟨0x547FAA6C, 0x8BA67C47⟩ })).map (fun t => (t.blkOut == Block.zero, t.chain == Block.zero))
      = some (false, false)
      ∧ (nextOf (exec (.rfEval 0) { cipher (tables ta [0] [16] [32] [48]) [] with blkIn := ⟨0, 0x33221100⟩ })).map
        (fun t => t.rfOut == 0) = some false
      ∧ (nextOf (exec .cbcDec { cipher tableB5
        [0x92FCEF4A, 0x9A211857] with len := 8, outLen := 3 })).map (fun t => t.outLen == 3) = some false := by
  decide +kernel

/-- NROUNDS = 0 and NROUNDS = KEY_DEPTH + 1. -/
theorem witness_BadRoundCountFailsBeforeAnyWrite :
    State.reset.nrounds.toNat = 0 ∧ { State.reset with nrounds := 257 }.params.keyDepth < { State.reset with nrounds := 257 }.nrounds.toNat
      ∧ Instr.padCheck ≠ .nop ∧ ∀ k, Instr.padCheck ≠ .rfEval k := ⟨rfl, by decide, by decide, fun _ => (nomatch ·)⟩

/-- B4b to B4f. -/
theorem witness_BadLengthFailsBeforeAnyWrite :
    { State.reset with nrounds := 1 }.roundsLegal ∧ { State.reset with nrounds := 256 }.roundsLegal
      ∧ State.reset.params.msgBytes ≤ (1024#14).toNat ∧ (12#14).toNat % 8 ≠ 0 ∧ State.reset.params.msgBytes < (1032#14).toNat := by
  decide

theorem witness_RoundFunctionArithmetic (m : Memory) (k d : Word) :
    ∃ t entry : Nat → Nat, (∀ i, i < 4 → t i = (k ^^^ d).toNat / 256 ^ i % 256)
      ∧ ∀ i, i < 4 → entry i = (m.byte (0x400 * i + 4 * t i)).toNat + 256 * (m.byte (0x400 * i + 4 * t i + 1)).toNat
        + 65536 * (m.byte (0x400 * i + 4 * t i + 2)).toNat + 16777216 * (m.byte (0x400 * i + 4 * t i + 3)).toNat :=
  ⟨_, _, fun _ _ => rfl, fun _ _ => rfl⟩

theorem witness_RfEvalEvaluatesTheRoundFunction :
    15 < { State.reset with params := ⟨16, 1024⟩ }.params.keyDepth ∧ { State.reset with params := ⟨16, 1024⟩ }.params.keyDepth ≤ 16 := by
  decide

/-- One round: L and R of round 0 and of round 1, in any state. -/
theorem witness_EcbEncRunsTheRounds (b : Block) (s : State) (hs : s.nrounds = 1) :
    ∃ L R : Nat → Word, L 0 = b.L ∧ R 0 = b.R
      ∧ ∀ i, i < s.nrounds.toNat → L (i + 1) = R i ∧ R (i + 1) = L i ^^^ roundFunction s.mem (s.mem.key i) (R i) :=
  ⟨fun i => if i = 0 then b.L else b.R, fun i => if i = 0 then b.R else b.L ^^^ roundFunction s.mem (s.mem.key 0) b.R, rfl, rfl,
    fun i hi => by
      rw [hs] at hi
      obtain rfl : i = 0 := Nat.lt_one_iff.mp hi
      exact ⟨rfl, rfl⟩⟩

theorem witness_EcbDecRunsTheRoundsBackwards (b : Block) (s : State) (hs : s.nrounds = 1) :
    ∃ L R : Nat → Word, L 0 = b.L ∧ R 0 = b.R
      ∧ ∀ i, i < s.nrounds.toNat → L (i + 1) = R i ^^^ roundFunction s.mem (s.mem.key (s.nrounds.toNat - 1 - i)) (L i)
        ∧ R (i + 1) = L i :=
  ⟨fun i => if i = 0 then b.L else b.R ^^^ roundFunction s.mem (s.mem.key 0) b.L, fun i => if i = 0 then b.R else b.L, rfl, rfl,
    fun i hi => by
      rw [hs] at hi ⊢
      obtain rfl : i = 0 := Nat.lt_one_iff.mp hi
      exact ⟨rfl, rfl⟩⟩

/-- The first and last legal round counts; for EcbRoundTrips, the block commands, PAD_CHECK and the block chains. -/
theorem witness_roundsLegal :
    { State.reset with nrounds := 1 }.roundsLegal ∧ { State.reset with nrounds := 256 }.roundsLegal := by decide

theorem witness_EcbRoundTrips : { State.reset with nrounds := 256 }.roundsLegal := by decide
theorem witness_CbcEncBlkEncodesOneBlock : { State.reset with nrounds := 256 }.roundsLegal := by decide
theorem witness_CbcDecBlkDecodesOneBlock : { State.reset with nrounds := 1 }.roundsLegal := by decide
theorem witness_BlockCommandsChainLikeCbc : { State.reset with nrounds := 1 }.roundsLegal := by decide
theorem witness_PadCheckJudgesTheDecodedBlock : { State.reset with nrounds := 256 }.roundsLegal := by decide

theorem witness_PadCheckDecidesThePadding :
    { State.reset with nrounds := 4 }.roundsLegal
      ∧ ∃ P : Block, P = (decBlock State.reset.mem 4 State.reset.blkIn).xor State.reset.iv := ⟨by decide, _, rfl⟩

/-- B1 to B4: the empty message and the longest one, and the padded block of the empty message. -/
theorem witness_CbcEncPadsAndChains :
    State.reset.params.legal ∧ { State.reset with nrounds := 1 }.roundsLegal ∧ (0 : Nat) < State.reset.params.msgBytes
      ∧ (1023#14).toNat < State.reset.params.msgBytes ∧ (8 : Nat) = 8 - 0 % 8 ∧ (1 : Nat) = (0 + 8) / 8
      ∧ ∀ j, j < 8 → (⟨0x08080808, 0x08080808⟩ : Block).byte j = BitVec.ofNat 8 8 := by decide

/-- One block, and the whole buffer (B4g). -/
theorem witness_CbcDecRawChainsOnCiphertext :
    State.reset.params.legal ∧ { State.reset with nrounds := 256 }.roundsLegal
      ∧ ([8, 1024].all fun n => decide (n ≠ 0 ∧ n % 8 = 0 ∧ n ≤ 1024 ∧ (BitVec.ofNat 14 n).toNat = n)) = true := by decide

theorem witness_CbcDecStripsByTheLastByte :
    State.reset.params.legal ∧ { State.reset with nrounds := 256 }.roundsLegal
      ∧ ([8, 1024].all fun n => decide (n ≠ 0 ∧ n % 8 = 0 ∧ n ≤ 1024 ∧ (BitVec.ofNat 14 n).toNat = n)) = true := by decide

theorem witness_CbcRoundTripRestoresTheMessage :
    State.reset.params.legal ∧ { State.reset with nrounds := 1 }.roundsLegal
      ∧ (0#14).toNat ≤ State.reset.params.msgBytes - 1 ∧ (1023#14).toNat ≤ State.reset.params.msgBytes - 1 := by decide

/-- The same RAMs twice: one VALID. -/
theorem witness_PadCheckRevealsOnlyValid :
    (nextOf (exec .padCheck State.reset)).isSome = true
      ∧ (nextOf (exec .padCheck { State.reset with mem := ⟨[(0, 1)], 0, 0⟩ })).isSome = true
      ∧ (nextOf (exec .padCheck State.reset)).map (·.valid)
        = (nextOf (exec .padCheck { State.reset with mem := ⟨[(0, 1)], 0, 0⟩ })).map (·.valid) := by decide +kernel

theorem witness_OracleAcceptsGenuineCiphertext :
    State.reset.params.legal ∧ { State.reset with nrounds := 1 }.roundsLegal ∧ (0#14).toNat < State.reset.params.msgBytes
      ∧ (1023#14).toNat < State.reset.params.msgBytes ∧ (1 : Nat) = (0#14).toNat / 8 + 1 ∧ (128 : Nat) = (1023#14).toNat / 8 + 1 := by
  decide

end Sys2Proof.Tests
end

section
/-! SUPPORT. The invariant of the model (`State.Inv`): it holds after reset, and every event of the agenda keeps it. One
lemma per operation that can change the state, then one per event. -/

namespace Sys2Proof.Machine

/-- Out of reset with no command in flight, only the configuration, the RAMs and OUT_LEN are constrained. -/
theorem inv_of_idle {s : State} (hr : s.rstN = true) (hb : s.busy = false) (hp : s.params.legal)
    (hw : s.mem.wf s.params) (ho : s.outLen.toNat ≤ s.params.msgBytes) (he : s.mem.ramEpoch < s.freeCount)
    (hm : s.mem.msgEpoch < s.freeCount) : s.Inv :=
  ⟨hp, hw, fun h => absurd h (by simp [hb]), fun h => absurd h (by simp [hr]), ho, he, hm⟩

/-! ### The agenda and the bus answer are not constrained -/

theorem putAgenda_inv {s : State} (es : List Event) (h : s.Inv) : (s.putAgenda es).Inv := h

theorem respond_inv {s : State} (r : Response) (h : s.Inv) : (s.respond r).Inv := h

/-! ### Host accesses -/

/-- A read may draw a free value; the draws made before stay below the counter. -/
theorem hostRead_freeCount_le (l : Loc) (s : State) : s.freeCount ≤ (hostRead l s).freeCount := by
  unfold hostRead
  split
  · exact Nat.le_succ _
  · exact Nat.le_refl _

theorem hostRead_inv {s : State} (l : Loc) (h : s.Inv) : (hostRead l s).Inv := by
  have hf := hostRead_freeCount_le l s
  obtain ⟨hp, hw, hc, hz, ho, he, hm⟩ := h
  rw [hostRead_frame]
  exact ⟨hp, hw, hc, hz, ho, Nat.lt_of_lt_of_le he hf, Nat.lt_of_lt_of_le hm hf⟩

/-- A write while BUSY = 1 never sets DONE (R27, R66). -/
theorem writeBusy_done_of_not_done {s : State} (l : Loc) (v : Word) (hd : s.done = false) :
    (writeBusy l v s).done = false := by
  unfold writeBusy
  split
  · exact hd
  · split
    · simp [hd]
    · exact hd

/-- A write while BUSY = 1 leaves the operands, the snapshot and the in-flight command, so that they stay coherent (R66). -/
theorem writeBusy_inv {s : State} (l : Loc) (v : Word) (hr : s.rstN = true) (h : s.Inv) : (writeBusy l v s).Inv := by
  have hd := writeBusy_done_of_not_done (s := s) l v
  obtain ⟨hp, hw, hc, -, ho, he, hm⟩ := h
  rw [writeBusy_frame]
  refine ⟨hp, hw, fun hb => ?_, fun h0 => absurd h0 (by simp [hr]), ho, he, hm⟩
  obtain ⟨hdone, hrest⟩ := hc hb
  exact ⟨hd hdone, hrest⟩

/-- Acceptance makes the in-flight command coherent (R111). -/
theorem accept_inv {s : State} (w : Word) (hr : s.rstN = true) (h : s.Inv) : (s.accept w).Inv := by
  obtain ⟨hp, hw, -, -, ho, he, hm⟩ := h
  exact ⟨hp, hw, fun _ => ⟨rfl, rfl, fun h6 => if_pos h6, rfl⟩, fun h0 => absurd h0 (by simp [hr]), ho, he, hm⟩

/-- A write draws no RAM anew (R232). -/
theorem writeIdle_epochs (l : Loc) (v : Word) (s : State) :
    (writeIdle l v s).mem.ramEpoch = s.mem.ramEpoch ∧ (writeIdle l v s).mem.msgEpoch = s.mem.msgEpoch := by
  cases l with
  | reg r => cases r <;> exact ⟨rfl, rfl⟩
  | sbox t e => exact ⟨rfl, rfl⟩
  | key i => exact ⟨rfl, rfl⟩
  | msgWord w => exact ⟨rfl, rfl⟩
  | reserved => exact ⟨rfl, rfl⟩

/-- A write while BUSY = 0 is an acceptance, or leaves an idle machine with the RAMs in canonical form (R63, R111). -/
theorem writeIdle_inv {s : State} {a : Nat} (h4 : a % 4 = 0) (ha : a < 0x4000) (v : Word) (hr : s.rstN = true)
    (hb : s.busy = false) (h : s.Inv) : (writeIdle (locate s.params a) v s).Inv := by
  rcases writeIdle_cases (locate s.params a) v s with ⟨-, e⟩ | ⟨-, e⟩
  · rw [e]
    exact accept_inv v hr h
  · obtain ⟨hp, hw, -, -, ho, he, hm⟩ := h
    have hw' := writeIdle_wf hp h4 ha v hw
    obtain ⟨er, em⟩ := writeIdle_epochs (locate s.params a) v s
    rw [e]
    exact inv_of_idle hr hb hp hw' ho (er ▸ he) (em ▸ hm)

/-- An access keeps the invariant, whatever it is (R62, R63, R66, R230). -/
theorem hostAccess_inv {s : State} (a : Access) (h : s.Inv) : (hostAccess a s).Inv := by
  rcases hostAccess_cases a s with ⟨r, e, -⟩ | ⟨-, -, -, e⟩ | ⟨hr, -, -, -, e⟩ | ⟨hr, ha, -, hb, e⟩ <;> rw [e]
  · exact respond_inv r h
  · exact hostRead_inv _ h
  · exact respond_inv _ (writeBusy_inv _ _ hr h)
  · have h4 := ((Access.supported_iff a).mp ha).2
    exact respond_inv _ (writeIdle_inv h4 a.addr.isLt _ hr hb h)

/-! ### The engine -/

/-- A completion runs on the live operands, which the coherent snapshot equals, and leaves an idle machine (R111, R112). -/
theorem completion_inv {s : State} (hr : s.rstN = true) (hb : s.busy = true) (h : s.Inv) : (completion s).Inv := by
  obtain ⟨hp, hw, hc, -, ho, he, hm⟩ := h
  obtain ⟨-, -, -, hsnap⟩ := hc hb
  obtain ⟨eparams, erstN, -, ebusy, -, -, -, -, -, -, efree⟩ := completion_frame s
  have hlive : s.atAcceptance = s := State.atAcceptance_of_coherent hsnap
  have hres : (completion s).mem.wf s.params ∧ (completion s).outLen.toNat ≤ s.params.msgBytes
      ∧ (completion s).mem.ramEpoch = s.mem.ramEpoch ∧ (completion s).mem.msgEpoch = s.mem.msgEpoch := by
    unfold completion
    rw [hlive]
    cases decode s.cmd with
    | ok i =>
      exact ⟨effect_wf (s := s.startCommand) hp hw, effect_outLen_le (s := s.startCommand) hp ho,
        effect_ramEpoch .., effect_msgEpoch ..⟩
    | error _ => exact ⟨hw, ho, rfl, rfl⟩
  obtain ⟨hw', ho', er, em⟩ := hres
  exact inv_of_idle (erstN.trans hr) ebusy (eparams ▸ hp) (eparams ▸ hw') (eparams ▸ ho')
    (by rw [er, efree]; exact he) (by rw [em, efree]; exact hm)

/-! ### Reset and power-on -/

/-- The RAMs after a reset edge are in canonical form, and a redrawn buffer takes a number that is new (R231, R232). -/
theorem ramsAfterReset_wf_epochs {s : State} (h : s.Inv) :
    (ramsAfterReset s).wf s.params ∧ (ramsAfterReset s).ramEpoch < s.freeCount
      ∧ (ramsAfterReset s).msgEpoch ≤ s.freeCount := by
  obtain ⟨-, hw, -, -, -, he, hm⟩ := h
  unfold ramsAfterReset
  split
  · exact ⟨redrawMsg_wf _ hw, he, Nat.le_refl _⟩
  · exact ⟨hw, he, Nat.le_of_lt hm⟩

/-- A reset edge puts the registers of R20 at their reset column (R230). -/
theorem resetEdge_registersAtReset (s : State) : (resetEdge s).registersAtReset :=
  ⟨rfl, rfl, rfl, rfl, rfl, rfl, rfl, rfl, rfl, rfl, rfl, rfl, rfl, rfl, rfl⟩

theorem resetEdge_inv {s : State} (h : s.Inv) : (resetEdge s).Inv := by
  obtain ⟨hw, he, hm⟩ := ramsAfterReset_wf_epochs h
  obtain ⟨hp, -⟩ := h
  exact ⟨hp, hw, fun hb => Bool.noConfusion hb, fun _ => resetEdge_registersAtReset s, Nat.zero_le _,
    Nat.lt_add_right 6 he, Nat.lt_of_le_of_lt hm (Nat.lt_add_of_pos_right (by decide))⟩

/-- Power-on is a reset edge with RAMs that nothing has written, under a number that is new (R232). -/
theorem powerOn_inv {s : State} (h : s.Inv) : (powerOn s).Inv := by
  have hnew : s.freeCount < s.freeCount + 6 := Nat.lt_add_of_pos_right (by decide)
  obtain ⟨hp, -⟩ := h
  exact ⟨hp, unwritten_wf s.params, fun hb => Bool.noConfusion hb, fun _ => resetEdge_registersAtReset s,
    Nat.zero_le _, hnew, hnew⟩

/-- The release of reset changes only the pin, and out of reset the invariant asks less (R230). -/
theorem releaseReset_inv {s : State} (h : s.Inv) : (releaseReset s).Inv := by
  obtain ⟨hp, hw, hc, -, ho, he, hm⟩ := h
  exact ⟨hp, hw, hc, fun h0 => Bool.noConfusion h0, ho, he, hm⟩

/-! ### Events and steps -/

/-- Every event keeps the invariant. -/
theorem after_inv {s : State} (e : Event) (h : s.Inv) : (after e s).Inv := by
  cases e with
  | access a => exact hostAccess_inv a h
  | engine =>
    simp only [after]
    split
    · rename_i hen
      exact completion_inv hen.1 hen.2 h
    · exact h
  | accessWithCompletion a =>
    simp only [after]
    split
    · rename_i hen
      have hb : (hostAccess a s).busy = true := by rw [hostAccess_busy_frame hen.2]; exact hen.2
      exact completion_inv ((hostAccess_rstN a s).trans hen.1) hb (hostAccess_inv a h)
    · exact hostAccess_inv a h
  | resetEdge => exact resetEdge_inv h
  | releaseReset => exact releaseReset_inv h
  | powerOn => exact powerOn_inv h

/-- Settles O18: State.reset is an idle machine in the reference configuration with unwritten RAMs. -/
theorem invariantHoldsAtReset : Obligations.InvariantHoldsAtReset :=
  inv_of_idle rfl rfl (by decide) (unwritten_wf _) (Nat.zero_le _) Nat.zero_lt_one Nat.zero_lt_one

/-- Settles O19, by the cases of a step: a completion with nothing on the agenda, no change, or the next event. -/
theorem everyStepKeepsTheInvariant : Obligations.EveryStepKeepsTheInvariant := by
  intro s t h hstep
  rcases step_cases hstep with ⟨-, hr, hb, rfl⟩ | ⟨-, -, rfl⟩ | ⟨e, rest, -, rfl⟩
  · exact completion_inv hr hb h
  · exact h
  · exact after_inv e (putAgenda_inv rest h)

end Sys2Proof.Machine
end

section
/-! SUPPORT. Which commands write which results, RAMs and counters, and that none reads a hidden register (10_state.md R34,
R37 to R42, R44 to R46): one law per register over all commands. -/

namespace Sys2Proof.Machine

/-! ### Who writes which register -/

/-- The three buffer commands by name. -/
theorem isBufferCommand_iff (i : Instr) :
    i.isBufferCommand = true ↔ i = .cbcEnc ∨ i = .cbcDecRaw ∨ i = .cbcDec := by
  cases i <;> simp [Instr.isBufferCommand]

/-- What a command that is none of the three buffer commands leaves alone: the RAMs, OUT_LEN, and a block index of 0, where
the start of the command put it (R34, R40 to R42, R46). -/
theorem effect_of_not_buffer {i : Instr} (hi : i.isBufferCommand = false) (s : State) :
    (effect i s).mem = s.mem ∧ (effect i s).outLen = s.outLen ∧ (s.blockIndex = 0 → (effect i s).blockIndex = 0) := by
  cases i with
  | nop => exact ⟨rfl, rfl, id⟩
  | cbcEnc | cbcDecRaw | cbcDec => cases hi
  | _ => simp only [effect]; split <;> simp

/-- The writers of BLK_OUT (R37). -/
theorem writer_of_blkOut_changed {i : Instr} {s : State} (h : (effect i s).blkOut ≠ s.blkOut) :
    i = .ecbEnc ∨ i = .ecbDec ∨ (∃ f, i = .cbcEncBlk f) ∨ ∃ f, i = .cbcDecBlk f := by
  cases i with
  | ecbEnc | ecbDec | cbcEncBlk f | cbcDecBlk f => simp
  | nop => exact absurd rfl h
  | rfEval k | padCheck | cbcEnc | cbcDecRaw | cbcDec =>
    refine absurd ?_ h
    simp only [effect]
    (repeat' split) <;> simp

/-- The writers of CHAIN (R38). -/
theorem writer_of_chain_changed {i : Instr} {s : State} (h : (effect i s).chain ≠ s.chain) :
    (∃ f, i = .cbcEncBlk f) ∨ (∃ f, i = .cbcDecBlk f) ∨ i = .cbcEnc ∨ i = .cbcDecRaw ∨ i = .cbcDec := by
  cases i with
  | cbcEncBlk f | cbcDecBlk f | cbcEnc | cbcDecRaw | cbcDec => simp
  | nop => exact absurd rfl h
  | rfEval k | padCheck | ecbEnc | ecbDec =>
    refine absurd ?_ h
    simp only [effect]
    split <;> simp

/-- The writer of RF_OUT (R39). -/
theorem writer_of_rfOut_changed {i : Instr} {s : State} (h : (effect i s).rfOut ≠ s.rfOut) : ∃ k, i = .rfEval k := by
  cases i with
  | rfEval k => exact ⟨k, rfl⟩
  | nop => exact absurd rfl h
  | _ =>
    refine absurd ?_ h
    simp only [effect]
    (repeat' split) <;> simp

/-! ### The RAMs after a buffer command -/

/-- The RAMs after a command: as they were, padded and encoded (CBC_ENC), or decoded (CBC_DEC_RAW, CBC_DEC), with the length
the command checked (R170, R171, R175, R176, R178). -/
theorem effect_mem_cases (i : Instr) (s : State) :
    (effect i s).mem = s.mem
      ∨ (s.len.toNat < s.params.msgBytes
          ∧ (effect i s).mem = (encodeBuffer s.nrounds.toNat s.len.toNat s).mem)
      ∨ ((s.len.toNat % 8 = 0 ∧ s.len.toNat ≤ s.params.msgBytes)
          ∧ (effect i s).mem = (decodeBuffer s.nrounds.toNat s.len.toNat s).mem) := by
  cases i with
  | cbcEnc =>
    simp only [effect]
    split
    · split
      · exact .inr (.inl ⟨by assumption, rfl⟩)
      · exact .inl rfl
    · exact .inl rfl
  | cbcDecRaw =>
    simp only [effect]
    split
    · split
      · rename_i hl
        exact .inr (.inr ⟨hl.2, rfl⟩)
      · exact .inl rfl
    · exact .inl rfl
  | cbcDec =>
    simp only [effect]
    split
    · split
      · rename_i hl
        split <;> exact .inr (.inr ⟨hl.2, rfl⟩)
      · exact .inl rfl
    · exact .inl rfl
  | _ => exact .inl (effect_of_not_buffer rfl s).1

/-- No command writes outside the message buffer (R41, R42, R69). -/
theorem byte_effect_outside_buffer {i : Instr} {s : State} (hp : s.params.legal) {x : Nat}
    (hx : x < 0x2000 ∨ 0x2000 + s.params.msgBytes ≤ x) : (effect i s).mem.byte x = s.mem.byte x := by
  obtain ⟨-, -, h8, -, -⟩ := hp
  rcases effect_mem_cases i s with e | ⟨hn, e⟩ | ⟨⟨hn8, hn⟩, e⟩ <;> rw [e]
  · have hfit := (padLen_fits h8).mpr hn
    exact byte_encodeBuffer_outside _ _ _ (by unfold msgAddr; omega)
  · exact byte_decodeBuffer_outside _ _ _ hn8 (by unfold msgAddr; omega)

/-- Settles O36: the RAMs change by the encode or the decode of the buffer only, and each keeps within MSG_BYTES. -/
theorem onlyBufferCommandsWriteTheBuffer : Obligations.OnlyBufferCommandsWriteTheBuffer := by
  intro i s t hp h
  rw [eq_effect_of_exec h]
  refine ⟨fun h1 h2 h3 => ?_, fun x hx => byte_effect_outside_buffer hp hx⟩
  have hi : i.isBufferCommand = false := by
    rw [Bool.eq_false_iff, Ne, isBufferCommand_iff]
    exact fun h => h.elim h1 fun h => h.elim h2 h3
  exact (effect_of_not_buffer hi s).1

/-- Settles O37, by the frames of the command families. -/
theorem resultRegistersHaveTheirWriters : Obligations.ResultRegistersHaveTheirWriters := by
  intro i s t h
  rw [eq_effect_of_exec h]
  refine ⟨writer_of_blkOut_changed, writer_of_chain_changed, writer_of_rfOut_changed, fun hne => ?_⟩
  rw [← isBufferCommand_iff]
  by_contra hi
  obtain ⟨-, hkept, -⟩ := effect_of_not_buffer (Bool.eq_false_iff.mpr hi) s
  exact hne hkept

/-! ### The hidden registers -/

/-- Contents of the hidden registers: L and R, the latches `prev` and save, the round counter, the block index (R44 to
R46). -/
structure Hidden where
  half : Block
  prev : Block
  save : Block
  round : Nat
  block : Nat

/-- The hidden registers all 0. -/
def Hidden.zero : Hidden := ⟨Block.zero, Block.zero, Block.zero, 0, 0⟩

/-- A state with other contents of the hidden registers. -/
def State.withHidden (h : Hidden) (s : State) : State :=
  { s with half := h.half, roundCounter := h.round, blockIndex := h.block, prevLatch := h.prev, saveLatch := h.save }

/-- No register of the window shows a hidden register (R44 to R46). -/
theorem readReg_withHidden (r : Reg) (h : Hidden) (s : State) : readReg r (s.withHidden h) = readReg r s := by
  cases r <;> rfl

/-- A command reads no hidden register: with their contents set to the same values after it, other contents before it make
no difference. -/
theorem effect_withHidden (i : Instr) (s : State) (before later : Hidden) :
    (effect i (s.withHidden before)).withHidden later = (effect i s).withHidden later := by
  cases i <;> simp only [effect, apply_ite (State.withHidden later)] <;> rfl

/-- Settles O38: the two completions differ in hidden registers only. -/
theorem hiddenRegistersAreNeverRead : Obligations.HiddenRegistersAreNeverRead := by
  intro i s half prev save round block
  have same := effect_withHidden i s ⟨half, prev, save, round, block⟩ Hidden.zero
  refine ⟨effect i s, effect i (s.withHidden ⟨half, prev, save, round, block⟩), exec_eq_effect i s, exec_eq_effect i _,
    (congrArg State.mem same).symm, fun r => ?_⟩
  rw [← readReg_withHidden r Hidden.zero, ← same, readReg_withHidden]

/-! ### The counters -/

/-- RF_EVAL runs no Feistel round (R45, R131). -/
theorem effect_rfEval_roundCounter (k : Nat) (s : State) :
    (effect (.rfEval k) s).roundCounter = s.roundCounter := by
  simp only [effect]
  split <;> rfl

/-- With an illegal round count no command runs a Feistel round or a loop over the buffer (R202, R203). -/
theorem effect_counters_of_badRounds (i : Instr) {s : State} (h : ¬ s.roundsLegal) :
    (effect i s).roundCounter = s.roundCounter ∧ (effect i s).blockIndex = s.blockIndex := by
  cases i with
  | nop => exact ⟨rfl, rfl⟩
  | rfEval k => simp only [effect]; split <;> exact ⟨rfl, rfl⟩
  | _ => simp only [effect, if_neg h]; exact ⟨rfl, rfl⟩

/-! ### The engine's step -/

/-- The completion of a legal word is its command's effect on the snapshot, with the counters reset (R40, R112). -/
theorem completion_of_decode {s : State} {i : Instr} (h : decode s.cmd = .ok i) :
    completion s = effect i s.atAcceptance.startCommand := by
  unfold completion
  rw [h]

/-- A step that is the engine's turn while a command is in flight (R110, R112). -/
theorem step_engine {s : State} {rest : List Event} (hr : s.rstN = true) (hb : s.busy = true)
    (h : s.agenda = .engine :: rest) : step s = .next (completion (s.putAgenda rest)) := by
  rw [step_cons h]
  exact congrArg _ (if_pos ⟨hr, hb⟩)

/-- Settles O10: the start puts both counters at 0, and the commands named leave them there. -/
theorem countersRestartWithEveryCommand : Obligations.CountersRestartWithEveryCommand := by
  intro s i rest hr hb hd hag
  refine ⟨_, step_engine hr hb hag, ?_⟩
  rw [completion_of_decode (s := s.putAgenda rest) hd]
  generalize hu : (s.putAgenda rest).atAcceptance.startCommand = u
  have hround : u.roundCounter = 0 := hu ▸ rfl
  have hblock : u.blockIndex = 0 := hu ▸ rfl
  have hlegal : ¬ s.atAcceptance.roundsLegal → ¬ u.roundsLegal := by rw [← hu]; exact id
  constructor
  · rintro (hi | hn)
    · obtain ⟨-, -, hkept⟩ := effect_of_not_buffer hi u
      exact hkept hblock
    · exact (effect_counters_of_badRounds i (hlegal hn)).2.trans hblock
  · rintro (rfl | ⟨k, rfl⟩ | hn)
    · exact hround
    · exact (effect_rfEval_roundCounter k u).trans hround
    · exact (effect_counters_of_badRounds i (hlegal hn)).1.trans hround

end Sys2Proof.Machine
end

section
/-! SUPPORT. The registers of the window over reads and idle writes (10_state.md R20 to R39, 20_memory.md R63, R64): what an
offset reads after a write of it, and that a write leaves every other offset alone. -/

namespace Sys2Proof.Machine

/-! ### Reads -/

/-- A read of a location that is no result register, or while BUSY = 0, answers its value (R63, R67). -/
theorem hostRead_value {l : Loc} {s : State} (h : s.busy = false ∨ isResultLoc l = false) :
    hostRead l s = s.respond ⟨some (readLoc l s), none⟩ :=
  if_neg (by rcases h with h | h <;> simp [h])

/-- The number CFG reads (R23). -/
theorem cfgWord_toNat {p : Params} (hp : p.legal) : (cfgWord p).toNat = 65536 * p.msgBytes + p.keyDepth := by
  obtain ⟨-, hk, -, -, hm⟩ := hp
  unfold cfgWord
  simp only [BitVec.toNat_append, BitVec.toNat_ofNat]
  rw [← Nat.shiftLeft_add_eq_or_of_lt (by omega), ← Nat.shiftLeft_add_eq_or_of_lt (by omega),
    ← Nat.shiftLeft_add_eq_or_of_lt (by omega)]
  simp only [Nat.shiftLeft_eq]
  omega

/-- Settles O14: each register's reset column, register by register. -/
theorem resetStateRegisters : Obligations.ResetStateRegisters := by
  refine ⟨rfl, rfl, fun r hid hcfg => ?_, rfl, rfl⟩
  cases r with
  | id => exact absurd rfl hid
  | cfg => exact absurd rfl hcfg
  | _ => rfl

/-! ### The configuration -/

theorem writeIdle_params (l : Loc) (v : Word) (s : State) : (writeIdle l v s).params = s.params := by
  rcases writeIdle_cases l v s with ⟨-, e⟩ | ⟨-, e⟩ <;> rw [e]
  rfl

@[simp] theorem hostAccess_params (a : Access) (s : State) : (hostAccess a s).params = s.params := by
  rcases hostAccess_cases a s with ⟨r, e, -⟩ | ⟨-, -, -, e⟩ | ⟨-, -, -, -, e⟩ | ⟨-, -, -, -, e⟩ <;> rw [e]
  · rfl
  · rw [hostRead_frame]
  · rw [writeBusy_frame]; rfl
  · exact writeIdle_params ..

theorem completion_params (s : State) : (completion s).params = s.params := (completion_frame s).1

/-- No event changes the configuration (R7). -/
theorem after_params (e : Event) (s : State) : (after e s).params = s.params := by
  cases e with
  | access a => exact hostAccess_params a s
  | engine => simp only [after]; split; exacts [completion_params s, rfl]
  | accessWithCompletion a => simp only [after]; split <;> simp [completion_params]
  | resetEdge => rfl
  | releaseReset => rfl
  | powerOn => rfl

theorem step_params {s t : State} (h : step s = .next t) : t.params = s.params := by
  rcases step_cases h with ⟨-, -, -, rfl⟩ | ⟨-, -, rfl⟩ | ⟨e, rest, -, rfl⟩
  · exact completion_params s
  · rfl
  · exact after_params e _

/-- A read of a register that is no result register answers what it holds, BUSY or not (R22, R23, R67). -/
theorem step_rd_reg {s : State} {off : BitVec 14} {r : Reg} {rest : List Event} (hr : s.rstN = true)
    (h4 : off.toNat % 4 = 0) (hmap : (off.toNat, r) ∈ regMap) (hres : isResultLoc (.reg r) = false)
    (h : s.agenda = .access (Access.rd off) :: rest) :
    step s = .next ((s.putAgenda rest).respond ⟨some (readReg r s), none⟩) := by
  rw [step_rd hr h4 h, locate_reg hmap, hostRead_value (.inr hres), readLoc_putAgenda]
  rfl

/-- Settles O29: neither register is a result register, and the fields of CFG are digits of its number. -/
theorem idAndCfgReadTheirConstants : Obligations.IdAndCfgReadTheirConstants := by
  intro s rest hp hr
  refine ⟨fun hag => ⟨_, step_rd_reg (r := .id) hr (by decide) (by decide) rfl hag, rfl⟩, fun hag => ?_,
    fun t => step_params⟩
  refine ⟨_, cfgWord s.params, step_rd_reg (r := .cfg) hr (by decide) (by decide) rfl hag, rfl, ?_⟩
  have hcfg := cfgWord_toNat hp
  obtain ⟨-, hk, -, -, hm⟩ := hp
  simp only [BitVec.extractLsb'_toNat, hcfg, Nat.shiftRight_eq_div_pow]
  omega

/-! ### A write of STATUS -/

/-- STATUS after a write of it: DONE and WERR are cleared where the written bit is 1 (R27, R29). -/
theorem status_writeStatus (v : Word) (s : State) : (s.writeStatus v).status = s.status &&& ~~~(v &&& 0x0000000A) := by
  have hmask : ∀ i, i < 32 → (0x0000000A : Word).getLsbD i = decide (i = 1 ∨ i = 3) := by decide
  apply BitVec.eq_of_getLsbD_eq
  intro i hi
  rw [BitVec.getLsbD_and, BitVec.getLsbD_not, BitVec.getLsbD_and, hmask i hi, status_getLsbD, status_getLsbD]
  by_cases h1 : i = 1
  · subst h1
    rw [if_neg (by decide), if_pos rfl, State.writeStatus_done]
    cases v.getLsbD 1 <;> simp
  by_cases h3 : i = 3
  · subst h3
    rw [if_neg (by decide), if_neg (by decide), if_neg (by decide), if_pos rfl, State.writeStatus_werr]
    cases v.getLsbD 3 <;> simp
  simp [h1, h3, hi]

/-- Settles O23: a write of STATUS does the same, BUSY or not. -/
theorem writeOfStatusClearsDoneAndWerrOnly : Obligations.WriteOfStatusClearsDoneAndWerrOnly := by
  intro s v rest hr hag
  refine ⟨_, step_cons hag, ?_⟩
  simp only [after]
  rw [hostAccess_wr_status (by exact hr)]
  exact ⟨status_writeStatus v (s.putAgenda rest), rfl⟩

/-! ### Registers after an idle write of a register -/

/-- How many bits, from bit 0 on, an idle write of a register stores: the "width used" of the RW rows of R20. STATUS and CMD
store none, since their writes have effects of their own. -/
def Reg.storedWidth : Reg → Nat
  | .id => 0
  | .cfg => 0
  | .ctrl => 1
  | .status => 0
  | .cmd => 0
  | .nrounds => 9
  | .len => 14
  | .outLen => 0
  | .iv0 => 32
  | .iv1 => 32
  | .blkIn0 => 32
  | .blkIn1 => 32
  | .blkOut0 => 0
  | .blkOut1 => 0
  | .chain0 => 0
  | .chain1 => 0
  | .rfOut => 0

/-- The word `v` on its low `n` bits and the word `old` on the others. -/
def storeLow (n : Nat) (v old : Word) : Word :=
  (v &&& (BitVec.allOnes n).setWidth 32) ||| (old &&& ~~~ (BitVec.allOnes n).setWidth 32)

theorem getLsbD_storeLow (n : Nat) (v old : Word) {i : Nat} (hi : i < 32) :
    (storeLow n v old).getLsbD i = if i < n then v.getLsbD i else old.getLsbD i := by
  by_cases hn : i < n <;> simp [storeLow, hi, hn]

theorem storeLow_zero (v old : Word) : storeLow 0 v old = old :=
  BitVec.eq_of_getLsbD_eq fun i hi => (getLsbD_storeLow 0 v old hi).trans (if_neg (Nat.not_lt_zero i))

theorem storeLow_full (v old : Word) : storeLow 32 v old = v :=
  BitVec.eq_of_getLsbD_eq fun _ hi => (getLsbD_storeLow 32 v old hi).trans (if_pos hi)

/-- A register of `n` bits that takes the low `n` bits of a word. -/
theorem storeLow_setWidth {n : Nat} (v : Word) (x : BitVec n) :
    storeLow n v (x.setWidth 32) = (v.extractLsb' 0 n).setWidth 32 := by
  apply BitVec.eq_of_getLsbD_eq
  intro i hi
  rw [getLsbD_storeLow n v _ hi]
  by_cases hn : i < n
  · simp [hi, hn]
  · simp [hn, BitVec.getLsbD_of_ge x i (by omega)]

/-- What a register reads after an idle write of it (R21). -/
theorem readReg_writeReg_same {r : Reg} (hs : r ≠ .status) (hc : r ≠ .cmd) (v : Word) (s : State) :
    readReg r (writeReg r v s) = storeLow r.storedWidth v (readReg r s) := by
  cases r with
  | status => exact absurd rfl hs
  | cmd => exact absurd rfl hc
  | ctrl =>
    have hbit : BitVec.ofBool (v.getLsbD 0) = v.extractLsb' 0 1 := by
      apply BitVec.eq_of_getLsbD_eq
      intro i hi
      obtain rfl : i = 0 := by omega
      simp
    exact (congrArg _ hbit).trans (storeLow_setWidth v _).symm
  | nrounds => exact (storeLow_setWidth v s.nrounds).symm
  | len => exact (storeLow_setWidth v s.len).symm
  | iv0 | iv1 | blkIn0 | blkIn1 => exact (storeLow_full v _).symm
  | _ => exact (storeLow_zero v _).symm

/-- An idle write of a register changes no other one, unless it is of STATUS or CMD (R64). -/
theorem readReg_writeReg_other {r r' : Reg} (hne : r' ≠ r) (hs : r ≠ .status) (hc : r ≠ .cmd) (v : Word) (s : State) :
    readReg r' (writeReg r v s) = readReg r' s := by
  cases r with
  | status => exact absurd rfl hs
  | cmd => exact absurd rfl hc
  | ctrl | nrounds | len | iv0 | iv1 | blkIn0 | blkIn1 => cases r' <;> first | exact absurd rfl hne | rfl
  | _ => rfl

/-- No write of a register touches the RAMs. -/
theorem writeReg_mem (r : Reg) (v : Word) (s : State) : (writeReg r v s).mem = s.mem := by
  cases r <;> rfl

/-- No register shows the RAMs. -/
theorem readReg_putMem (r : Reg) (m : Memory) (s : State) : readReg r (s.putMem m) = readReg r s := by
  cases r <;> rfl

/-! ### The bits a write stores -/

theorem writableBits_implemented {p : Params} {a : Nat} (h : implemented p a = true) :
    writableBits p a = 0xFFFFFFFF := if_pos h

/-- Off the RAMs the writable bits do not depend on the configuration. -/
theorem writableBits_congr {p q : Params} {a : Nat} (h : implemented p a = implemented q a) :
    writableBits p a = writableBits q a := by
  unfold writableBits
  rw [h]

/-- The writable bits of a register's offset are the low bits its write stores (R20). -/
theorem writableBits_reg {p : Params} {a : Nat} {r : Reg} (hr : (a, r) ∈ regMap) (h : implemented p a = false) :
    writableBits p a = (BitVec.allOnes r.storedWidth).setWidth 32 := by
  have map : ∀ c ∈ regMap, implemented ⟨0, 0⟩ c.1 = false
      ∧ writableBits ⟨0, 0⟩ c.1 = (BitVec.allOnes c.2.storedWidth).setWidth 32 := by decide
  obtain ⟨hi, hbits⟩ := map _ hr
  exact (writableBits_congr (h.trans hi.symm)).trans hbits

/-- A reserved offset stores nothing (R63). -/
theorem writableBits_reserved {p : Params} {a : Nat} (h : implemented p a = false) (hr : ∀ r, (a, r) ∉ regMap) :
    writableBits p a = 0 := by
  have hne : ∀ c ∈ regMap, a ≠ c.1 := by
    rintro ⟨_, r⟩ hc rfl
    exact hr r hc
  simp only [regMap, List.forall_mem_cons] at hne
  simp [writableBits, h, hne]

/-! ### Locations after an idle write -/

/-- A location after an idle write of it: the written bits where the offset stores them, the old ones elsewhere (R21,
R41 to R43, R63). -/
theorem readLoc_writeIdle_same {p : Params} (hp : p.legal) {a : Nat} (h4 : a % 4 = 0) (ha : a < 0x4000)
    (hs : a ≠ 0x140C) (hc : a ≠ 0x1410) (v : Word) (s : State) :
    readLoc (locate p a) (writeIdle (locate p a) v s)
      = (v &&& writableBits p a) ||| (readLoc (locate p a) s &&& ~~~ writableBits p a) := by
  rcases locate_cases hp ha with hi | ⟨r, hr, e, hi⟩ | ⟨e, hi, hr⟩
  · obtain ⟨hread, hwrite, -, -⟩ := locate_implemented hp h4 hi
    rw [hwrite, hread, State.putMem_mem, word_setWord_same, writableBits_implemented hi]
    exact (storeLow_full v _).symm
  · have hst : r ≠ .status := fun h => hs (locate_eq_status.mp (h ▸ e))
    have hcm : r ≠ .cmd := fun h => hc (locate_eq_cmd.mp (h ▸ e))
    rw [e, writableBits_reg hr hi]
    exact readReg_writeReg_same hst hcm v s
  · rw [e, writableBits_reserved hi hr]
    exact (storeLow_zero v 0).symm

/-- An idle write changes no other location, unless it is of STATUS or CMD (R64). -/
theorem readLoc_writeIdle_other {p : Params} (hp : p.legal) {a b : Nat} (ha4 : a % 4 = 0) (ha : a < 0x4000)
    (hb4 : b % 4 = 0) (hb : b < 0x4000) (hne : b ≠ a) (hs : a ≠ 0x140C) (hc : a ≠ 0x1410) (v : Word) (s : State) :
    readLoc (locate p b) (writeIdle (locate p a) v s) = readLoc (locate p b) s := by
  rcases locate_cases hp ha with hi | ⟨r, -, e, -⟩ | ⟨e, -, -⟩
  · obtain ⟨-, hwrite, -, -⟩ := locate_implemented hp ha4 hi
    rw [hwrite]
    rcases locate_cases hp hb with hi' | ⟨r', -, e', -⟩ | ⟨e', -, -⟩
    · obtain ⟨hread, -, -, -⟩ := locate_implemented hp hb4 hi'
      rw [hread, hread]
      exact word_setWord_other _ _ (by omega)
    · rw [e']
      exact readReg_putMem ..
    · rw [e']
      rfl
  · have hst : r ≠ .status := fun h => hs (locate_eq_status.mp (h ▸ e))
    have hcm : r ≠ .cmd := fun h => hc (locate_eq_cmd.mp (h ▸ e))
    rcases locate_cases hp hb with hi' | ⟨r', hr', e', -⟩ | ⟨e', -, -⟩
    · obtain ⟨hread, -, -, -⟩ := locate_implemented hp hb4 hi'
      rw [hread, hread, e]
      exact congrArg (Memory.word · b) (writeReg_mem r v s)
    · have hrr : r' ≠ r := by
        rintro rfl
        have map : ∀ c ∈ regMap, ∀ d ∈ regMap, c.2 = d.2 → c.1 = d.1 := by decide
        exact hne (map _ hr' _ (locate_reg_inv e) rfl)
      rw [e, e']
      exact readReg_writeReg_other hrr hst hcm v s
    · rw [e']
      rfl
  · rw [e]
    rfl

/-! ### Idle writes as steps -/

/-- An aligned word write while BUSY = 0 (R21). -/
theorem step_wr_idle {s : State} {off : BitVec 14} {v : Word} {rest : List Event} (hr : s.rstN = true)
    (hb : s.busy = false) (h4 : off.toNat % 4 = 0) (h : s.agenda = .access (Access.wr off v) :: rest) :
    step s = .next ((writeIdle (locate s.params off.toNat) v (s.putAgenda rest)).respond ⟨none, none⟩) := by
  have hidle : ∀ l, hostWrite l v (s.putAgenda rest) = writeIdle l v (s.putAgenda rest) := fun _ => if_neg (by simp [hb])
  rw [step_wr hr h4 h, hidle]

/-- An aligned word read while BUSY = 0 (R63). -/
theorem step_rd_idle {s : State} {off : BitVec 14} {rest : List Event} (hr : s.rstN = true)
    (hb : s.busy = false) (h4 : off.toNat % 4 = 0) (h : s.agenda = .access (Access.rd off) :: rest) :
    step s = .next ((s.putAgenda rest).respond ⟨some (readLoc (locate s.params off.toNat) s), none⟩) := by
  rw [step_rd hr h4 h, hostRead_value (.inl (by exact hb)), readLoc_putAgenda]

/-- A write that is no acceptance leaves the pin, BUSY and the agenda. -/
theorem writeIdle_control {l : Loc} (hl : l ≠ .reg .cmd) (v : Word) (s : State) :
    (writeIdle l v s).rstN = s.rstN ∧ (writeIdle l v s).busy = s.busy ∧ (writeIdle l v s).agenda = s.agenda := by
  rcases writeIdle_cases l v s with ⟨h, -⟩ | ⟨-, e⟩
  · exact absurd h hl
  · rw [e]
    exact ⟨rfl, rfl, rfl⟩

/-- Settles O24: the read that follows the write finds the location as the write left it. -/
theorem readReturnsTheWrittenBits : Obligations.ReadReturnsTheWrittenBits := by
  intro s off v rest hp hr hb h4 hs hc hag
  have hsn : off.toNat ≠ 0x140C := BitVec.toNat_ne.mp hs
  have hcn : off.toNat ≠ 0x1410 := BitVec.toNat_ne.mp hc
  have hwrite := step_wr_idle hr hb h4 hag
  obtain ⟨hr', hb', hag'⟩ := writeIdle_control (fun h => hcn (locate_eq_cmd.mp h)) v
    (s.putAgenda (.access (Access.rd off) :: rest))
  refine ⟨_, (core_run_succ hwrite).trans (core_run_succ (step_rd_idle (hr'.trans hr) (hb'.trans hb) h4 hag')), ?_⟩
  rw [State.respond_resp, step_params hwrite, readLoc_respond, readLoc_writeIdle_same hp h4 off.isLt hsn hcn,
    readLoc_putAgenda]

/-- Settles O25: the configuration stays, and so does every other location. -/
theorem writeLeavesOtherLocations : Obligations.WriteLeavesOtherLocations := by
  intro s off other v rest hp hr hb h4 h4' hs hc hne hag
  have hwrite := step_wr_idle hr hb h4 hag
  refine ⟨_, hwrite, ?_⟩
  rw [step_params hwrite, readLoc_respond, readLoc_writeIdle_other hp h4 off.isLt h4' other.isLt
    (BitVec.toNat_ne.mp hne) (BitVec.toNat_ne.mp hs) (BitVec.toNat_ne.mp hc), readLoc_putAgenda]

end Sys2Proof.Machine
end

section
/-! SUPPORT. BUSY, VALID and WERR over all steps (10_state.md R26, R28, R29): a step is a reset, or the host's part of it and
then perhaps a completion; and the command that withFetchWord places. -/

namespace Sys2Proof.Machine

/-! ### The two parts of a step -/

/-- `u` is what the host's part of the next step makes of `s`: an access the next event makes, or nothing but the pin and the
agenda. -/
def State.HostPart (s u : State) : Prop :=
  (∃ pin es, u = { s with rstN := pin, agenda := es })
    ∨ ∃ e a rest, s.agenda = e :: rest ∧ e.access? = some a ∧ u = hostAccess a (s.putAgenda rest)

/-- Everything a step can do: a reset, or the host's part and then, if a command was in flight, perhaps its completion
(R110, R211, R230). -/
theorem step_parts {s t : State} (h : step s = .next t) :
    ((∃ e rest, s.agenda = e :: rest ∧ e.isReset = true) ∧ t.registersAtReset)
      ∨ ∃ u, s.HostPart u ∧ (t = u ∨ (s.rstN = true ∧ s.busy = true ∧ t = completion u)) := by
  rcases step_cases h with ⟨-, hr, hb, rfl⟩ | ⟨-, -, rfl⟩ | ⟨e, rest, hag, rfl⟩
  · exact .inr ⟨s, .inl ⟨_, _, rfl⟩, .inr ⟨hr, hb, rfl⟩⟩
  · exact .inr ⟨t, .inl ⟨_, _, rfl⟩, .inl rfl⟩
  · cases e with
    | access a => exact .inr ⟨_, .inr ⟨_, a, rest, hag, rfl, rfl⟩, .inl rfl⟩
    | engine =>
      refine .inr ⟨s.putAgenda rest, .inl ⟨_, _, rfl⟩, ?_⟩
      simp only [after]
      split
      · rename_i hen
        exact .inr ⟨hen.1, hen.2, rfl⟩
      · exact .inl rfl
    | accessWithCompletion a =>
      refine .inr ⟨_, .inr ⟨_, a, rest, hag, rfl, rfl⟩, ?_⟩
      simp only [after]
      split
      · rename_i hen
        exact .inr ⟨hen.1, hen.2, rfl⟩
      · exact .inl rfl
    | resetEdge => exact .inl ⟨⟨_, rest, hag, rfl⟩, resetEdge_registersAtReset _⟩
    | releaseReset => exact .inr ⟨_, .inl ⟨_, _, rfl⟩, .inl rfl⟩
    | powerOn => exact .inl ⟨⟨_, rest, hag, rfl⟩, resetEdge_registersAtReset (s.putAgenda rest)⟩

/-! ### The flags over one access -/

/-- An access while BUSY = 0 is an acceptance, by an aligned word write of CMD out of reset, or leaves BUSY and VALID (R26,
R28, R111). -/
theorem hostAccess_idle_cases (a : Access) {s : State} (hb : s.busy = false) :
    (s.rstN = true ∧ a.we = true ∧ a.size = 2 ∧ a.addr = 0x1410
        ∧ hostAccess a s = (s.accept a.wdata).respond ⟨none, none⟩)
      ∨ ((hostAccess a s).busy = false ∧ (hostAccess a s).valid = s.valid) := by
  rcases hostAccess_cases a s with ⟨r, e, -⟩ | ⟨-, -, -, e⟩ | ⟨-, -, -, hb', -⟩ | ⟨hr, ha, hw, -, e⟩
  · exact .inr (by rw [e]; exact ⟨hb, rfl⟩)
  · exact .inr (by rw [e, hostRead_frame]; exact ⟨hb, rfl⟩)
  · rw [hb] at hb'; cases hb'
  · rcases writeIdle_cases (locate s.params a.addr.toNat) a.wdata s with ⟨hl, e'⟩ | ⟨-, e'⟩
    · have haddr : a.addr = 0x1410 := BitVec.eq_of_toNat_eq (locate_eq_cmd.mp hl)
      exact .inl ⟨hr, hw, ((Access.supported_iff a).mp ha).1, haddr, by rw [e, e']⟩
    · exact .inr (by rw [e, e']; exact ⟨hb, rfl⟩)

/-- What an access does to WERR: a write dropped while BUSY sets it, a write of STATUS with bit 3 clears it, anything else
keeps it (R29, R66). -/
theorem hostAccess_werr_cases (a : Access) (s : State) :
    (hostAccess a s).werr = s.werr
      ∨ (s.busy = true ∧ a.we = true ∧ a.addr ≠ 0x1408 ∧ a.addr ≠ 0x140C ∧ (hostAccess a s).werr = true)
      ∨ (a.we = true ∧ a.addr = 0x140C ∧ a.wdata.getLsbD 3 = true ∧ (hostAccess a s).werr = false) := by
  rcases hostAccess_cases a s with ⟨r, e, -⟩ | ⟨-, -, -, e⟩ | ⟨-, -, hw, hb, e⟩ | ⟨-, -, hw, -, e⟩
  · exact .inl (by rw [e]; rfl)
  · exact .inl (by rw [e, hostRead_frame])
  · rcases writeBusy_cases s.params a.addr.toNat a.wdata s with ⟨-, e'⟩ | ⟨haddr, e'⟩ | ⟨h1, h2, e'⟩ <;> rw [e'] at e
    · exact .inl (by rw [e]; rfl)
    · cases h3 : a.wdata.getLsbD 3 with
      | true => exact .inr (.inr ⟨hw, BitVec.eq_of_toNat_eq haddr, rfl, by rw [e]; exact if_pos h3⟩)
      | false => exact .inl (by rw [e]; exact if_neg (Bool.eq_false_iff.mp h3))
    · exact .inr (.inl ⟨hb, hw, BitVec.toNat_ne.mpr h1, BitVec.toNat_ne.mpr h2, by rw [e]; rfl⟩)
  · have hwerr := writeIdle_werr (locate s.params a.addr.toNat) a.wdata s
    by_cases h : locate s.params a.addr.toNat = .reg .status ∧ a.wdata.getLsbD 3 = true
    · have haddr : a.addr = 0x140C := BitVec.eq_of_toNat_eq (locate_eq_status.mp h.1)
      exact .inr (.inr ⟨hw, haddr, h.2, by rw [e]; exact hwerr.trans (if_pos h)⟩)
    · exact .inl (by rw [e]; exact hwerr.trans (if_neg h))

/-! ### The flags over the host's part of a step -/

/-- While a command is in flight the host's part leaves BUSY, VALID and CMD (R66, R72). -/
theorem State.HostPart.busy_frame {s u : State} (h : s.HostPart u) (hb : s.busy = true) :
    u.busy = true ∧ u.valid = s.valid ∧ u.cmd = s.cmd := by
  rcases h with ⟨pin, es, rfl⟩ | ⟨e, a, rest, -, -, rfl⟩
  · exact ⟨hb, rfl, rfl⟩
  · rw [hostAccess_busy_frame (by exact hb)]
    exact ⟨hb, rfl, rfl⟩

/-- While no command is in flight the host's part is an acceptance, or leaves BUSY and VALID (R26, R28, R111). -/
theorem State.HostPart.idle_cases {s u : State} (h : s.HostPart u) (hb : s.busy = false) :
    (∃ e a rest, s.agenda = e :: rest ∧ e.access? = some a ∧ s.rstN = true ∧ a.we = true ∧ a.size = 2
        ∧ a.addr = 0x1410 ∧ u = ((s.putAgenda rest).accept a.wdata).respond ⟨none, none⟩)
      ∨ (u.busy = false ∧ u.valid = s.valid) := by
  rcases h with ⟨pin, es, rfl⟩ | ⟨e, a, rest, hag, ha, rfl⟩
  · exact .inr ⟨hb, rfl⟩
  · rcases hostAccess_idle_cases a (s := s.putAgenda rest) hb with ⟨hr, hw, hsize, haddr, hu⟩ | h
    · exact .inl ⟨e, a, rest, hag, ha, hr, hw, hsize, haddr, hu⟩
    · exact .inr h

/-- WERR over the host's part of a step (R29). -/
theorem State.HostPart.werr_cases {s u : State} (h : s.HostPart u) :
    u.werr = s.werr
      ∨ ∃ e a rest, s.agenda = e :: rest ∧ e.access? = some a ∧ a.we = true
        ∧ ((s.busy = true ∧ a.addr ≠ 0x1408 ∧ a.addr ≠ 0x140C ∧ u.werr = true)
          ∨ (a.addr = 0x140C ∧ a.wdata.getLsbD 3 = true ∧ u.werr = false)) := by
  rcases h with ⟨pin, es, rfl⟩ | ⟨e, a, rest, hag, ha, rfl⟩
  · exact .inl rfl
  · rcases hostAccess_werr_cases a (s.putAgenda rest) with h | ⟨hb, hw, h1, h2, h⟩ | ⟨hw, haddr, h3, h⟩
    · exact .inl h
    · exact .inr ⟨e, a, rest, hag, ha, hw, .inl ⟨hb, h1, h2, h⟩⟩
    · exact .inr ⟨e, a, rest, hag, ha, hw, .inr ⟨haddr, h3, h⟩⟩

/-! ### The flags over all steps -/

theorem completion_busy_done (s : State) : (completion s).busy = false ∧ (completion s).done = true := by
  obtain ⟨-, -, -, hb, hd, -⟩ := completion_frame s
  exact ⟨hb, hd⟩

theorem completion_werr (s : State) : (completion s).werr = s.werr := by
  obtain ⟨-, -, -, -, -, hw, -⟩ := completion_frame s
  exact hw

/-- A completion that changes VALID is a PAD_CHECK that ends without error (R28, R192, R203). -/
theorem padCheck_of_completion_valid {s : State} (h : (completion s).valid ≠ s.valid) :
    decode s.cmd = .ok .padCheck ∧ (completion s).err = .none := by
  have hd : decode s.cmd = .ok .padCheck := by
    by_contra hd
    exact h (completion_valid_of_ne_padCheck hd)
  refine ⟨hd, ?_⟩
  rw [completion_of_decode hd] at h ⊢
  simp only [effect] at h ⊢
  split at h
  · rename_i hr
    rw [if_pos hr]
    rfl
  · exact absurd rfl h

/-- Settles O31: only an acceptance in the host's part sets BUSY, and only a completion clears it. -/
theorem busyChangesOnlyByAcceptanceCompletionReset : Obligations.BusyChangesOnlyByAcceptanceCompletionReset := by
  intro s t h
  constructor
  · intro hb hbt
    rcases step_parts h with ⟨-, -, hbr, -⟩ | ⟨u, hu, rfl | ⟨-, -, rfl⟩⟩
    · rw [hbr] at hbt; cases hbt
    · rcases hu.idle_cases hb with ⟨e, a, rest, hag, ha, hr, hw, hsize, haddr, rfl⟩ | ⟨hbu, -⟩
      · exact ⟨e, a, rest, hag, ha, hr, hw, hsize, haddr, rfl⟩
      · rw [hbu] at hbt; cases hbt
    · rw [(completion_busy_done u).1] at hbt; cases hbt
  · intro hb hbt
    rcases step_parts h with ⟨hreset, -⟩ | ⟨u, hu, rfl | ⟨hr, -, rfl⟩⟩
    · exact .inr hreset
    · rw [(hu.busy_frame hb).1] at hbt; cases hbt
    · exact .inl ⟨hr, (completion_busy_done u).2⟩

/-- Settles O32: VALID is changed by the acceptance of an OP 0x6 word, by the completion of a PAD_CHECK, or by a reset. -/
theorem validChangesOnlyByPadCheckOrReset : Obligations.ValidChangesOnlyByPadCheckOrReset := by
  intro s t h hne
  rcases step_parts h with ⟨hreset, -⟩ | ⟨u, hu, ht⟩
  · exact .inr (.inr hreset)
  cases hb : s.busy with
  | false =>
    obtain rfl : t = u := ht.elim id fun ⟨_, hb', _⟩ => by rw [hb] at hb'; cases hb'
    rcases hu.idle_cases hb with ⟨e, a, rest, hag, ha, -, hw, -, haddr, rfl⟩ | ⟨-, hv⟩
    · by_cases h6 : opField a.wdata = 0x6
      · exact .inl ⟨e, a, rest, hag, ha, rfl, hw, haddr, (extractLsb'_opField _ _).mpr h6, if_pos h6⟩
      · exact absurd (if_neg h6) hne
    · exact absurd hv hne
  | true =>
    obtain ⟨-, hv, hcmd⟩ := hu.busy_frame hb
    rcases ht with rfl | ⟨-, -, rfl⟩
    · exact absurd hv hne
    · rw [← hv] at hne
      obtain ⟨hd, herr⟩ := padCheck_of_completion_valid hne
      exact .inr (.inl ⟨rfl, hcmd ▸ hd, (completion_busy_done u).1, herr⟩)

/-- Settles O33: a completion keeps WERR, and of the accesses only a dropped write sets it and only a write of STATUS clears
it. -/
theorem werrIsStickyUntilClearedByTheHost : Obligations.WerrIsStickyUntilClearedByTheHost := by
  intro s t h
  rcases step_parts h with ⟨hreset, -, -, -, -, hwr, -⟩ | ⟨u, hu, ht⟩
  · exact ⟨fun _ hset => (by rw [hwr] at hset; cases hset), fun _ _ => .inr hreset⟩
  have htu : t.werr = u.werr := by
    rcases ht with rfl | ⟨-, -, rfl⟩
    · rfl
    · exact completion_werr u
  rw [htu]
  rcases hu.werr_cases with hkept | ⟨e, a, rest, hag, ha, hw, ⟨hb, h1, h2, hset⟩ | ⟨haddr, h3, hclear⟩⟩
  · rw [hkept]
    exact ⟨fun h0 h1 => (by rw [h0] at h1; cases h1), fun h1 h0 => (by rw [h0] at h1; cases h1)⟩
  · exact ⟨fun _ _ => ⟨hb, e, a, rest, hag, ha, hw, h1, h2⟩, fun _ h0 => (by rw [hset] at h0; cases h0)⟩
  · exact ⟨fun _ h1 => (by rw [hclear] at h1; cases h1), fun _ _ => .inl ⟨e, a, rest, hag, ha, hw, haddr, h3⟩⟩

/-! ### The word that withFetchWord places -/

/-- An opcode-table word that decodes is a command word that does (R90). -/
theorem decode_commandWordOf {nbits w : Nat} {i : Instr} (h : decodeTableWord nbits w = some i) :
    decode (commandWordOf nbits w) = .ok i := by
  unfold commandWordOf
  unfold decodeTableWord at h
  simp only at h
  split at h
  · cases hd : decode (BitVec.ofNat 32 (w % 2 ^ nbits)) with
    | ok j => rw [hd] at h; cases h; rfl
    | error r => rw [hd] at h; cases h
  · cases h

/-- Settles O9: the engine is next, and the snapshot it loads was taken of the state as it stands. -/
theorem placedWordRunsNext : Obligations.PlacedWordRunsNext := by
  intro s nbits w i h
  have hd := decode_commandWordOf h
  have hstep := step_engine (s := s.withFetchWord nbits w) (rest := s.agenda) rfl rfl rfl
  rw [hstep, exec_eq_effect, completion_of_decode (by exact hd), State.atAcceptance_of_coherent (by rfl)]
  rfl

end Sys2Proof.Machine
end

section
/-! SUPPORT. The register window while BUSY and at its edges (20_memory.md R62 to R67): unsupported accesses, reserved
offsets, reads and writes while a command is in flight. -/

namespace Sys2Proof.Machine

/-! ### The two classes of offsets -/

/-- The reserved offsets name no location (R63). -/
theorem locate_reserved {p : Params} (hp : p.legal) {a : Nat} (ha : a < 0x4000) (h : reservedOffset p a) :
    locate p a = .reserved := by
  rcases locate_cases hp ha with hi | ⟨r, hr, -, -⟩ | ⟨e, -, -⟩
  · exfalso
    obtain ⟨-, hk, -, -, -⟩ := hp
    simp only [implemented, Bool.or_eq_true, Bool.and_eq_true, decide_eq_true_eq] at hi
    omega
  · exfalso
    have map : ∀ c ∈ regMap, 0x1400 ≤ c.1 ∧ c.1 < 0x1444 := by decide
    have hrange := map _ hr
    omega
  · exact e

/-- The locations whose reads are unspecified while BUSY, by offset (R67). -/
theorem isResultLoc_locate_iff {p : Params} (hp : p.legal) {a : Nat} (h4 : a % 4 = 0) (ha : a < 0x4000) :
    isResultLoc (locate p a) = true ↔ resultOffset p a := by
  rcases locate_cases hp ha with hi | ⟨r, hr, e, -⟩ | ⟨e, hi, hnr⟩
  · obtain ⟨-, -, hres, -⟩ := locate_implemented hp h4 hi
    obtain ⟨-, hk, -, -, -⟩ := hp
    simp only [implemented, Bool.or_eq_true, Bool.and_eq_true, decide_eq_true_eq] at hi
    rw [hres, decide_eq_true_eq]
    omega
  · have map : ∀ c ∈ regMap, c.1 < 0x2000
        ∧ (isResultLoc (.reg c.2) = true ↔ c.1 = 0x141C ∨ (0x1430 ≤ c.1 ∧ c.1 ≤ 0x1440)) := by decide
    obtain ⟨hlt, hres⟩ := map _ hr
    rw [e, hres]
    omega
  · have hne : ∀ c ∈ regMap, a ≠ c.1 := by
      rintro ⟨_, r⟩ hc rfl
      exact hnr r hc
    simp only [regMap, List.forall_mem_cons] at hne
    simp only [implemented, Bool.or_eq_false_iff, Bool.and_eq_false_iff, decide_eq_false_iff_not] at hi
    rw [e]
    exact iff_of_false Bool.false_ne_true (by omega)

/-! ### The answer of an access -/

/-- A read answers a word, with no `bus_err` (R62, R64). -/
theorem hostRead_resp (l : Loc) (s : State) : ∃ d, (hostRead l s).resp = some ⟨some d, none⟩ := by
  unfold hostRead
  split <;> exact ⟨_, rfl⟩

/-- An aligned word access out of reset answers no `bus_err` (R62). -/
theorem hostAccess_supported_resp {a : Access} {s : State} (hr : s.rstN = true) (ha : a.supported = true) :
    ∃ d, (hostAccess a s).resp = some ⟨d, none⟩ := by
  cases hw : a.we with
  | true =>
    rw [hostAccess_write hr ha hw]
    exact ⟨none, rfl⟩
  | false =>
    rw [hostAccess_read hr ha hw]
    obtain ⟨d, hd⟩ := hostRead_resp (locate s.params a.addr.toNat) s
    exact ⟨some d, hd⟩

/-- Settles O20: `bus_err` is the answer of the unsupported accesses, and of no others. -/
theorem unsupportedAccessAnswersBusErr : Obligations.UnsupportedAccessAnswersBusErr := by
  intro s a rest hr hag
  refine ⟨fun hun => ?_, fun hsup => ?_⟩
  · have ha : a.supported = false := Bool.eq_false_iff.mpr fun h => hun ((Access.supported_iff a).mp h)
    rw [step_cons hag]
    simp only [after]
    rw [hostAccess_unsupported (by exact hr) ha]
    rfl
  · obtain ⟨d, hd⟩ := hostAccess_supported_resp (s := s.putAgenda rest) hr ((Access.supported_iff a).mpr hsup)
    exact ⟨_, d, step_cons hag, hd⟩

/-- A read access changes the answer and the count of free values only (R64). -/
theorem hostAccess_read_frame {a : Access} (hw : a.we = false) (s : State) :
    hostAccess a s = { s with resp := (hostAccess a s).resp, freeCount := (hostAccess a s).freeCount } := by
  rcases hostAccess_cases a s with ⟨r, e, -⟩ | ⟨-, -, -, e⟩ | ⟨-, -, hw', -⟩ | ⟨-, -, hw', -⟩
  · rw [e]; rfl
  · rw [e, hostRead_frame]
  · rw [hw] at hw'; cases hw'
  · rw [hw] at hw'; cases hw'

/-- Settles O27: a read access is ignored, refused with `bus_err`, or a read of a location. -/
theorem readsHaveNoSideEffect : Obligations.ReadsHaveNoSideEffect :=
  fun s _ rest hw hag => ⟨_, step_cons hag, hostAccess_read_frame hw (s.putAgenda rest)⟩

/-! ### Accesses while BUSY -/

/-- An aligned word write while BUSY = 1 (R66). -/
theorem step_wr_busy {s : State} {off : BitVec 14} {v : Word} {rest : List Event} (hr : s.rstN = true)
    (hb : s.busy = true) (h4 : off.toNat % 4 = 0) (h : s.agenda = .access (Access.wr off v) :: rest) :
    step s = .next ((writeBusy (locate s.params off.toNat) v (s.putAgenda rest)).respond ⟨none, none⟩) := by
  have hbusy : ∀ l, hostWrite l v (s.putAgenda rest) = writeBusy l v (s.putAgenda rest) := fun _ => if_pos hb
  rw [step_wr hr h4 h, hbusy]

/-- A write of STATUS as Boolean operations on DONE and WERR (R27, R29). -/
theorem writeStatus_eq_and_not (v : Word) (s : State) :
    s.writeStatus v = { s with done := s.done && !v.getLsbD 1, werr := s.werr && !v.getLsbD 3 } := by
  unfold State.writeStatus
  cases v.getLsbD 1 <;> cases v.getLsbD 3 <;> simp

/-- Settles O21, by what a write can do while BUSY = 1. -/
theorem writesWhileBusyAreDropped : Obligations.WritesWhileBusyAreDropped := by
  intro s off v rest hr hb h4 hag
  rw [step_wr_busy hr hb h4 hag]
  rcases writeBusy_cases s.params off.toNat v (s.putAgenda rest) with ⟨ha, e⟩ | ⟨ha, e⟩ | ⟨h1, h2, e⟩ <;> rw [e]
  · rw [if_pos (BitVec.eq_of_toNat_eq ha)]
    rfl
  · obtain rfl : off = 0x140C := BitVec.eq_of_toNat_eq ha
    rw [if_neg (by decide), if_pos rfl, writeStatus_eq_and_not]
    rfl
  · rw [if_neg (BitVec.toNat_ne.mpr h1), if_neg (BitVec.toNat_ne.mpr h2)]
    rfl

/-- Settles O26: a reserved offset holds 0 and no write, and is neither CTRL nor STATUS. -/
theorem reservedOffsetsReadZeroIgnoreWrites : Obligations.ReservedOffsetsReadZeroIgnoreWrites := by
  intro s off v rest hp hr h4 hres
  have hloc : locate s.params off.toNat = .reserved := locate_reserved hp off.isLt hres
  refine ⟨fun hag => ?_, fun hag hb => ?_, fun hag hb => ?_⟩
  · rw [step_rd hr h4 hag, hloc, hostRead_value (.inr rfl)]
    rfl
  · rw [step_wr_idle hr hb h4 hag, hloc]
    rfl
  · have hdrop : ∀ u : State, writeBusy .reserved v u = { u with werr := true } := fun _ =>
      (if_neg (by simp)).trans (if_neg (by simp))
    rw [step_wr_busy hr hb h4 hag, hloc, hdrop]
    rfl

/-- Settles O28: a read is of a result location, or answers the location's value. -/
theorem readsWhileBusy : Obligations.ReadsWhileBusy := by
  intro s off rest hp hr hb h4 hag
  have hiff := isResultLoc_locate_iff hp h4 off.isLt
  rw [step_rd hr h4 hag]
  refine ⟨fun hres => ?_, fun hres => ?_⟩
  · unfold hostRead
    rw [if_pos (by simp [hb, hiff.mpr hres])]
    rfl
  · rw [hostRead_value (.inr (Bool.eq_false_iff.mpr fun h => hres (hiff.mp h))), readLoc_putAgenda]
    rfl

/-- Settles O30, by the frame of an access while BUSY. -/
theorem operandsCannotChangeWhileBusy : Obligations.OperandsCannotChangeWhileBusy := by
  intro s a rest hb hag
  refine ⟨_, step_cons hag, ?_⟩
  simp only [after]
  rw [hostAccess_busy_frame (by exact hb)]
  exact ⟨rfl, rfl, rfl, hb, rfl⟩

end Sys2Proof.Machine
end

section
/-! SUPPORT. Host traffic and the result of the command in flight (20_memory.md R66, R72, 40_control.md R111, R112): the
accesses made while BUSY move only what the host has to itself, no command reads any of that, and so the results are those
of the operands at acceptance. -/

namespace Sys2Proof.Machine

/-! ### What the host can move while BUSY -/

/-- What accesses can change while a command is in flight: CTRL.IE, DONE, WERR, the bus answer and the count of free values;
and the agenda they are taken from (R66, R67). -/
structure HostSide where
  ie : Bool
  done : Bool
  werr : Bool
  resp : Option Response
  freeCount : Nat
  agenda : List Event

/-- The host's side of a state. -/
def State.hostSide (s : State) : HostSide := ⟨s.ie, s.done, s.werr, s.resp, s.freeCount, s.agenda⟩

/-- A state with another host's side. -/
def State.withHostSide (h : HostSide) (s : State) : State :=
  { s with ie := h.ie, done := h.done, werr := h.werr, resp := h.resp, freeCount := h.freeCount, agenda := h.agenda }

/-- An access while BUSY changes the host's side only, and takes its event off the agenda (R66, R67). -/
theorem step_access_busy {s : State} {a : Access} {rest : List Event} (hb : s.busy = true)
    (hag : s.agenda = .access a :: rest) :
    ∃ h : HostSide, h.agenda = rest ∧ step s = .next (s.withHostSide h) := by
  have hframe := hostAccess_busy_frame (a := a) (s := s.putAgenda rest) hb
  refine ⟨{ (hostAccess a (s.putAgenda rest)).hostSide with agenda := rest }, rfl, ?_⟩
  rw [step_cons hag]
  exact congrArg Host.Outcome.next hframe

/-- A run of accesses while BUSY changes the host's side only. -/
theorem core_run_accesses_busy (as : List Access) {s : State} {k : Nat} {rest : List Event} (hb : s.busy = true)
    (hag : s.agenda = as.map Event.access ++ rest) :
    ∃ h : HostSide, h.agenda = rest
      ∧ Sys2Proof.core.run (as.length + k) s = Sys2Proof.core.run k (s.withHostSide h) := by
  induction as generalizing s with
  | nil => exact ⟨s.hostSide, hag, by rw [List.length_nil, Nat.zero_add]; rfl⟩
  | cons a as ih =>
    obtain ⟨h₁, hag₁, hstep⟩ := step_access_busy hb hag
    obtain ⟨h₂, hag₂, hrun⟩ := ih (s := s.withHostSide h₁) hb hag₁
    refine ⟨h₂, hag₂, ?_⟩
    rw [List.length_cons, Nat.succ_add, core_run_succ hstep, hrun]
    rfl

/-! ### What a command's results depend on -/

/-- The results of a command: the RAMs, the result registers, ERR and VALID (R28, R30, R34, R37 to R43). -/
structure Results where
  mem : Memory
  blkOut : Block
  chain : Block
  rfOut : Word
  outLen : BitVec 14
  err : ErrCode
  valid : Bool

/-- The results as they stand in a state. -/
def State.results (s : State) : Results := ⟨s.mem, s.blkOut, s.chain, s.rfOut, s.outLen, s.err, s.valid⟩

@[simp] theorem results_withHostSide (h : HostSide) (s : State) : (s.withHostSide h).results = s.results := rfl
@[simp] theorem results_withHidden (h : Hidden) (s : State) : (s.withHidden h).results = s.results := rfl

/-- A command reads nothing of the host's side: with it set to the same values afterwards, another one before makes no
difference. -/
theorem effect_withHostSide (i : Instr) (s : State) (before later : HostSide) :
    (effect i (s.withHostSide before)).withHostSide later = (effect i s).withHostSide later := by
  cases i <;> simp only [effect, apply_ite (State.withHostSide later)] <;> rfl

theorem results_effect_withHostSide (i : Instr) (s : State) (h : HostSide) :
    (effect i (s.withHostSide h)).results = (effect i s).results := by
  simpa only [results_withHostSide] using congrArg State.results (effect_withHostSide i s h s.hostSide)

theorem results_effect_withHidden (i : Instr) (s : State) (h : Hidden) :
    (effect i (s.withHidden h)).results = (effect i s).results := by
  simpa only [results_withHidden] using congrArg State.results (effect_withHidden i s h Hidden.zero)

/-- The counters that the start of a command resets are hidden registers, so its results do not depend on the reset
(R40, R45, R46). -/
theorem results_effect_startCommand (i : Instr) (s : State) :
    (effect i s.startCommand).results = (effect i s).results :=
  results_effect_withHidden i s ⟨s.half, s.prevLatch, s.saveLatch, 0, 0⟩

/-! ### From acceptance to completion -/

/-- A step that accepts a command changes, beside what acceptance does, the host's side only (R111). -/
theorem step_accept {s : State} {w : Word} {rest : List Event} (hr : s.rstN = true) (hb : s.busy = false)
    (hag : s.agenda = .access (Access.wr 0x1410 w) :: rest) :
    step s = .next (((s.accept w).putAgenda rest).respond ⟨none, none⟩) := by
  rw [step_cons hag]
  simp only [after]
  rw [hostAccess_wr_cmd (by exact hr) (by exact hb)]
  rfl

/-- The completion of an accepted legal word, after any change of the host's side, has the results of the command on the
state at acceptance: the snapshot is still the live operands (R72, R111, R112). -/
theorem results_completion_of_accepted {w : Word} {i : Instr} (hd : decode w = .ok i) (s : State) (h : HostSide) :
    (completion ((s.accept w).withHostSide h)).results = (effect i (s.accept w)).results := by
  have hlive : ((s.accept w).withHostSide h).atAcceptance = (s.accept w).withHostSide h :=
    State.atAcceptance_of_coherent rfl
  rw [completion_of_decode (s := (s.accept w).withHostSide h) hd, hlive, results_effect_startCommand,
    results_effect_withHostSide]

/-- Settles O13: acceptance, the accesses one after the other, the engine's step. -/
theorem hostTrafficCannotChangeACommandsResult : Obligations.HostTrafficCannotChangeACommandsResult := by
  intro s w i as rest hr hb hd hag
  have haccept := step_accept hr hb hag
  obtain ⟨h, hag', htraffic⟩ := core_run_accesses_busy as (k := 1)
    (s := ((s.accept w).putAgenda (as.map Event.access ++ .engine :: rest)).respond ⟨none, none⟩) rfl rfl
  have hengine := step_engine (s := (s.accept w).withHostSide h) hr rfl hag'
  obtain ⟨-, -, -, hbusy, hdone, -, hcmd, -⟩ :=
    completion_frame (((s.accept w).withHostSide h).putAgenda rest)
  have hres := results_completion_of_accepted hd s { h with agenda := rest }
  simp only [State.results, Results.mk.injEq] at hres
  obtain ⟨hmem, hblk, hchain, hrf, hlen, herr, hvalid⟩ := hres
  exact ⟨_, _, (core_run_succ haccept).trans (htraffic.trans (core_run_succ hengine)), exec_eq_effect i _,
    hmem, hblk, hchain, hrf, hlen, herr, hvalid, hbusy, hdone, hcmd⟩

end Sys2Proof.Machine
end

section
/-! SUPPORT. Command words (30_encoding.md R90 to R97): decoding inverts encoding, a row of the match/mask list holds the
encodings of its commands, and an illegal word completes with E_ILLEGAL_CMD. -/

namespace Sys2Proof

/-! ### Decoding inverts encoding -/

/-- KIDX is an 8-bit field (R90). -/
theorem kidxField_eq_toNat (w : Word) : kidxField w = (BitVec.ofNat 8 (kidxField w)).toNat :=
  (Nat.mod_eq_of_lt (w.extractLsb' 8 8).isLt).symm

theorem wellFormed_rfEval_kidxField (w : Word) : (Instr.rfEval (kidxField w)).wellFormed = true :=
  decide_eq_true (Nat.le_of_lt_succ (w.extractLsb' 8 8).isLt)

/-- A word with the fields of a built word is that word (R90). -/
theorem commandWord_eq {w : Word} {op : BitVec 4} {s : Bool} {k : BitVec 8} (hh : highReservedField w = 0)
    (hl : lowReservedField w = 0) (ho : opField w = op.toNat) (hs : sField w = s) (hk : kidxField w = k.toNat) :
    commandWord op s k = w := by
  have hw := commandWord_of_fields hh hl
  rwa [ho, hs, hk, BitVec.ofNat_toNat, BitVec.ofNat_toNat, BitVec.setWidth_eq, BitVec.setWidth_eq] at hw

/-- RF_EVAL is the one command whose word depends on a number (R91). -/
theorem decode_encode_rfEval {k : Nat} (hk : k ≤ 255) : decode (encode (.rfEval k)) = .ok (.rfEval k) := by
  have hmod : k % 256 = k := Nat.mod_eq_of_lt (Nat.lt_succ_of_le hk)
  simp [encode, decode_commandWord, decodeOp, decodeRfEval, hmod]

/-- Settles O1: every other command has one word, or one word for each value of S. -/
theorem decodeOfEncodeGivesTheCommand : Obligations.DecodeOfEncodeGivesTheCommand := by
  intro i hi
  cases i with
  | rfEval k => exact decode_encode_rfEval (of_decide_eq_true hi)
  | cbcEncBlk sel => cases sel <;> rfl
  | cbcDecBlk sel => cases sel <;> rfl
  | nop => rfl
  | ecbEnc => rfl
  | ecbDec => rfl
  | padCheck => rfl
  | cbcEnc => rfl
  | cbcDecRaw => rfl
  | cbcDec => rfl

/-- Settles O2: the fields the decoder found are all the fields of the word. -/
theorem encodeOfDecodeGivesTheWord : Obligations.EncodeOfDecodeGivesTheWord := by
  intro w i h
  obtain ⟨hh, hl, hop⟩ := decode_ok h
  rcases decodeOp_cases hop with ⟨ho, hs, hk, rfl⟩ | ⟨ho, hs, hk, rfl⟩ | ⟨ho, hs, hk, rfl⟩ | ⟨ho, hs, rfl⟩
    | ⟨ho, hk, rfl⟩ | ⟨ho, hk, rfl⟩ | ⟨ho, hs, hk, rfl⟩ | ⟨ho, hs, hk, rfl⟩ | ⟨ho, hs, hk, rfl⟩ | ⟨ho, hs, hk, rfl⟩
  · exact ⟨rfl, commandWord_eq hh hl ho hs hk⟩
  · exact ⟨rfl, commandWord_eq hh hl ho hs hk⟩
  · exact ⟨rfl, commandWord_eq hh hl ho hs hk⟩
  · exact ⟨wellFormed_rfEval_kidxField w, commandWord_eq hh hl ho hs (kidxField_eq_toNat w)⟩
  · exact ⟨rfl, commandWord_eq hh hl ho (sOfFeedback_feedbackOfS _).symm hk⟩
  · exact ⟨rfl, commandWord_eq hh hl ho (sOfFeedback_feedbackOfS _).symm hk⟩
  · exact ⟨rfl, commandWord_eq hh hl ho hs hk⟩
  · exact ⟨rfl, commandWord_eq hh hl ho hs hk⟩
  · exact ⟨rfl, commandWord_eq hh hl ho hs hk⟩
  · exact ⟨rfl, commandWord_eq hh hl ho hs hk⟩

/-- The legal words are the encodings of the well-formed commands (R90 to R93). -/
theorem decode_eq_ok_iff {w : Word} {i : Instr} : decode w = .ok i ↔ i.wellFormed = true ∧ encode i = w :=
  ⟨encodeOfDecodeGivesTheWord w i, fun ⟨hi, hw⟩ => hw ▸ decodeOfEncodeGivesTheCommand i hi⟩

/-- Settles O5: the legal words are encodings, and each illegal one breaks the clause it is rejected by. -/
theorem workedEncodingsDecode : Obligations.WorkedEncodingsDecode :=
  have hdec := decodeOfEncodeGivesTheCommand
  ⟨hdec .nop rfl, hdec .ecbEnc rfl, hdec (.rfEval 5) rfl, hdec (.cbcEncBlk .iv) rfl, hdec (.cbcDecBlk .chain) rfl,
    hdec .padCheck rfl, hdec .cbcDec rfl, rfl, rfl⟩

/-! ### The match/mask list -/

/-- Where the mask is all ones, the word has the bits of the match. -/
theorem toNat_extractLsb'_of_and {w m p : Word} {start len : Nat} (h : w &&& m = p)
    (hm : m.extractLsb' start len = BitVec.allOnes len) :
    (w.extractLsb' start len).toNat = (p.extractLsb' start len).toNat := by
  rw [← h, BitVec.extractLsb'_and, hm, BitVec.and_allOnes]

/-- Where the mask leaves open S and KIDX only, these two fields complete the match to the word. -/
theorem commandWord_of_and {w m : Word} {op : BitVec 4} {s : Bool} {k : BitVec 8} (h : w &&& m = commandWord op false 0)
    (hmh : m.extractLsb' 16 16 = BitVec.allOnes 16) (hml : m.extractLsb' 5 3 = BitVec.allOnes 3)
    (hmo : m.extractLsb' 0 4 = BitVec.allOnes 4) (hs : sField w = s) (hk : kidxField w = k.toNat) :
    commandWord op s k = w :=
  commandWord_eq ((toNat_extractLsb'_of_and h hmh).trans (highReservedField_commandWord op false 0))
    ((toNat_extractLsb'_of_and h hml).trans (lowReservedField_commandWord op false 0))
    ((toNat_extractLsb'_of_and h hmo).trans (opField_commandWord op false 0)) hs hk

/-- A row with a full mask holds one word. -/
theorem decode_of_full_mask {w : Word} {i : Instr} (hi : i.wellFormed = true) (h : w &&& 0xFFFFFFFF = encode i) :
    decode w = .ok i :=
  decode_eq_ok_iff.mpr ⟨hi, h.symm.trans BitVec.and_allOnes⟩

/-- The row of RF_EVAL leaves KIDX open. -/
theorem encode_of_rfEval_row {w : Word} (h : w &&& 0xFFFF00FF = encode (.rfEval 0)) :
    encode (.rfEval (kidxField w)) = w := by
  have hs : w.getLsbD 4 = false := by simpa [encode, commandWord] using congrArg (BitVec.getLsbD · 4) h
  exact commandWord_of_and h rfl rfl rfl hs (kidxField_eq_toNat w)

/-- The row of a block command leaves S open. -/
theorem commandWord_of_blk_row {w : Word} {op : BitVec 4} (h : w &&& 0xFFFFFFEF = commandWord op false 0) :
    commandWord op (sOfFeedback (feedbackOfS (sField w))) 0 = w := by
  have hk : kidxField w = 0 := (toNat_extractLsb'_of_and h rfl).trans (kidxField_commandWord op false 0)
  exact commandWord_of_and h rfl rfl rfl (sOfFeedback_feedbackOfS _).symm hk

/-- A word that matches a row decodes to a command of the row's mnemonic (R92). -/
theorem decode_of_row {w : Word} {r : OpcodeRow} (hr : r ∈ opcodeRows) (h : w &&& r.mask = r.pattern) :
    ∃ i, decode w = .ok i ∧ i.mnemonic = r.mnemonic := by
  simp only [opcodeRows, List.mem_cons, List.not_mem_nil, or_false] at hr
  rcases hr with rfl | rfl | rfl | rfl | rfl | rfl | rfl | rfl | rfl | rfl
  · exact ⟨.nop, decode_of_full_mask rfl h, rfl⟩
  · exact ⟨.ecbEnc, decode_of_full_mask rfl h, rfl⟩
  · exact ⟨.ecbDec, decode_of_full_mask rfl h, rfl⟩
  · exact ⟨_, decode_eq_ok_iff.mpr ⟨wellFormed_rfEval_kidxField w, encode_of_rfEval_row h⟩, rfl⟩
  · exact ⟨.cbcEncBlk _, decode_eq_ok_iff.mpr ⟨rfl, commandWord_of_blk_row h⟩, rfl⟩
  · exact ⟨.cbcDecBlk _, decode_eq_ok_iff.mpr ⟨rfl, commandWord_of_blk_row h⟩, rfl⟩
  · exact ⟨.padCheck, decode_of_full_mask rfl h, rfl⟩
  · exact ⟨.cbcEnc, decode_of_full_mask rfl h, rfl⟩
  · exact ⟨.cbcDecRaw, decode_of_full_mask rfl h, rfl⟩
  · exact ⟨.cbcDec, decode_of_full_mask rfl h, rfl⟩

/-- Every command has a row, and its word matches that row (R92). -/
theorem encode_fits_ownRow (i : Instr) : Laws.EncodingOwnRow.Statement i := by
  cases i with
  | nop => exact Laws.EncodingOwnRow.nop
  | ecbEnc => exact Laws.EncodingOwnRow.ecbEnc
  | ecbDec => exact Laws.EncodingOwnRow.ecbDec
  | rfEval k => exact Laws.EncodingOwnRow.rfEval k
  | cbcEncBlk f => exact Laws.EncodingOwnRow.cbcEncBlk f
  | cbcDecBlk f => exact Laws.EncodingOwnRow.cbcDecBlk f
  | padCheck => exact Laws.EncodingOwnRow.padCheck
  | cbcEnc => exact Laws.EncodingOwnRow.cbcEnc
  | cbcDecRaw => exact Laws.EncodingOwnRow.cbcDecRaw
  | cbcDec => exact Laws.EncodingOwnRow.cbcDec

/-- Settles O4: a row's words decode to its mnemonic, and a legal word is an encoding, which matches its own row. -/
theorem decodedCommandIsTheRowThatMatches : Obligations.DecodedCommandIsTheRowThatMatches := by
  refine fun w r hr => ⟨decode_of_row hr, ?_⟩
  rintro ⟨i, hd, hm⟩
  obtain ⟨hi, rfl⟩ := decode_eq_ok_iff.mp hd
  obtain ⟨-, hfits⟩ := encode_fits_ownRow i hi
  exact beq_iff_eq.mp (hfits r hr hm.symm)

/-- No two rows have one mnemonic (R92). -/
theorem opcodeRow_ext_mnemonic : ∀ r ∈ opcodeRows, ∀ r' ∈ opcodeRows, r'.mnemonic = r.mnemonic → r' = r := by decide

/-- A word is legal iff it matches exactly one row (R93): a word has one command, and a mnemonic one row. -/
theorem decode_ok_iff_one_row (w : Word) : (∃ i, decode w = .ok i) ↔
    ∃ r ∈ opcodeRows, w &&& r.mask = r.pattern ∧ ∀ r' ∈ opcodeRows, w &&& r'.mask = r'.pattern → r' = r := by
  constructor
  · rintro ⟨i, hd⟩
    obtain ⟨hi, -⟩ := decode_eq_ok_iff.mp hd
    obtain ⟨⟨r, hr, hm⟩, -⟩ := encode_fits_ownRow i hi
    refine ⟨r, hr, (decodedCommandIsTheRowThatMatches w r hr).mpr ⟨i, hd, hm.symm⟩, fun r' hr' h' => ?_⟩
    obtain ⟨i', hd', hm'⟩ := decode_of_row hr' h'
    obtain rfl : i = i' := Except.ok.inj (hd.symm.trans hd')
    exact opcodeRow_ext_mnemonic r hr r' hr' (hm'.symm.trans hm.symm)
  · rintro ⟨r, hr, h, -⟩
    obtain ⟨i, hd, -⟩ := decode_of_row hr h
    exact ⟨i, hd⟩

/-! ### The fields of a legal word -/

theorem decode_of_reserved {w : Word} (hh : highReservedField w = 0) (hl : lowReservedField w = 0) :
    decode w = decodeOp w := by
  simp [decode, hh, hl]

theorem decodePlain_of_fields {w : Word} (i : Instr) (hs : sField w = false) (hk : kidxField w = 0) :
    decodePlain w i = .ok i := by
  simp [decodePlain, hs, hk]

theorem decodeRfEval_of_fields {w : Word} (hs : sField w = false) :
    decodeRfEval w = .ok (.rfEval (kidxField w)) := by
  simp [decodeRfEval, hs]

theorem decodeBlk_of_fields {w : Word} (c : Feedback → Instr) (hk : kidxField w = 0) :
    decodeBlk w c = .ok (c (feedbackOfS (sField w))) := by
  simp [decodeBlk, hk]

/-- Beside 0x3, 0x4 and 0x5, a legal OP uses neither S nor KIDX (R92). -/
theorem decodeOp_plain {w : Word} (h : opField w ≤ 9) (h3 : opField w ≠ 3) (h4 : opField w ≠ 4) (h5 : opField w ≠ 5) :
    ∃ i, decodeOp w = decodePlain w i := by
  have hop : opField w = 0 ∨ opField w = 1 ∨ opField w = 2 ∨ opField w = 6 ∨ opField w = 7 ∨ opField w = 8
      ∨ opField w = 9 := by omega
  rcases hop with h | h | h | h | h | h | h <;> (simp only [decodeOp, h]; exact ⟨_, rfl⟩)

/-- The clauses of R93 on OP, S and KIDX decide whether the OP field's decoder accepts the word. -/
theorem decodeOp_ok_iff (w : Word) : (∃ i, decodeOp w = .ok i) ↔
    opField w ≤ 9 ∧ (sField w = false ∨ opField w = 4 ∨ opField w = 5) ∧ (kidxField w = 0 ∨ opField w = 3) := by
  constructor
  · rintro ⟨i, hop⟩
    rcases decodeOp_cases hop with h | h | h | h | h | h | h | h | h | h <;> simp [h]
  · rintro ⟨hop, hs, hk⟩
    by_cases h3 : opField w = 3
    · simp only [decodeOp, h3]
      exact ⟨_, decodeRfEval_of_fields (hs.resolve_right (by omega))⟩
    have hk0 : kidxField w = 0 := hk.resolve_right h3
    by_cases h4 : opField w = 4
    · simp only [decodeOp, h4]
      exact ⟨_, decodeBlk_of_fields _ hk0⟩
    by_cases h5 : opField w = 5
    · simp only [decodeOp, h5]
      exact ⟨_, decodeBlk_of_fields _ hk0⟩
    have hs0 : sField w = false := hs.resolve_right (not_or.mpr ⟨h4, h5⟩)
    obtain ⟨i, hi⟩ := decodeOp_plain hop h3 h4 h5
    exact ⟨i, hi.trans (decodePlain_of_fields i hs0 hk0)⟩

/-- A word is legal iff its fields are (R93). -/
theorem decode_ok_iff_fields (w : Word) : (∃ i, decode w = .ok i) ↔
    opField w ≤ 9 ∧ highReservedField w = 0 ∧ lowReservedField w = 0
      ∧ (sField w = false ∨ opField w = 4 ∨ opField w = 5) ∧ (kidxField w = 0 ∨ opField w = 3) := by
  constructor
  · rintro ⟨i, hd⟩
    obtain ⟨hh, hl, hop⟩ := decode_ok hd
    obtain ⟨ho, hs, hk⟩ := (decodeOp_ok_iff w).mp ⟨i, hop⟩
    exact ⟨ho, hh, hl, hs, hk⟩
  · rintro ⟨ho, hh, hl, hs, hk⟩
    rw [decode_of_reserved hh hl]
    exact (decodeOp_ok_iff w).mpr ⟨ho, hs, hk⟩

/-- Settles O3: a field is zero as bits iff it is as a number. -/
theorem wordIsLegalIffItsFieldsAre : Obligations.WordIsLegalIffItsFieldsAre := by
  refine fun w => ⟨?_, decode_ok_iff_one_row w⟩
  simp only [← BitVec.toNat_inj]
  exact decode_ok_iff_fields w

end Sys2Proof

namespace Sys2Proof.Machine

/-! ### An illegal word -/

/-- The completion of an illegal word is the error alone (R94). -/
theorem completion_of_illegal {s : State} (h : ∀ i, decode s.cmd ≠ .ok i) : completion s = s.complete .illegalCmd := by
  unfold completion
  cases hd : decode s.cmd with
  | ok i => exact absurd hd (h i)
  | error e => rfl

/-- Settles O6: acceptance, then the engine's step, which finds no command. -/
theorem illegalWordIsAcceptedAndCompletesWithError : Obligations.IllegalWordIsAcceptedAndCompletesWithError := by
  intro s w rest hr hb hill hag
  have haccept := step_accept hr hb hag
  have hengine := step_engine (s := ((s.accept w).putAgenda (.engine :: rest)).respond ⟨none, none⟩) hr rfl rfl
  rw [core_run_succ haccept, core_run_succ hengine, completion_of_illegal (by exact hill), hb,
    if_congr (extractLsb'_opField w 0x6) rfl rfl]
  rfl

end Sys2Proof.Machine
end

section
/-! SUPPORT. The two agents (40_control.md R110 to R114): what a command's completion leaves alone, the engine's step, acceptance
by a write of CMD, and that a command in flight completes. -/

namespace Sys2Proof.Machine

/-! ### What every command leaves alone -/

/-- A command completes, and writes no register of the host's and nothing of the model's own (R24, R29, R31 to R36, R112). -/
theorem effect_frame (i : Instr) (s : State) :
    (effect i s).busy = false ∧ (effect i s).done = true ∧ (effect i s).ie = s.ie ∧ (effect i s).werr = s.werr
      ∧ (effect i s).cmd = s.cmd ∧ (effect i s).nrounds = s.nrounds ∧ (effect i s).len = s.len
      ∧ (effect i s).iv = s.iv ∧ (effect i s).blkIn = s.blkIn ∧ (effect i s).params = s.params
      ∧ (effect i s).rstN = s.rstN ∧ (effect i s).snap = s.snap ∧ (effect i s).resp = s.resp
      ∧ (effect i s).agenda = s.agenda ∧ (effect i s).freeCount = s.freeCount := by
  cases i with
  | nop => simp [effect]
  | _ =>
    simp only [effect]
    (repeat' split) <;> simp

/-- No command but PAD_CHECK writes VALID (R28). -/
theorem effect_valid_of_ne_padCheck {i : Instr} (hi : i ≠ .padCheck) (s : State) : (effect i s).valid = s.valid := by
  cases i with
  | padCheck => exact absurd rfl hi
  | nop => rfl
  | _ =>
    simp only [effect]
    (repeat' split) <;> simp

/-- Settles O35: the frame of a command's effect, and VALID beside it. -/
theorem commandsNeverWriteHostRegisters : Obligations.CommandsNeverWriteHostRegisters := by
  intro i s
  obtain ⟨hbusy, hdone, hie, hwerr, hcmd, hnrounds, hlen, hiv, hblkIn, hparams, hrstN, hown⟩ := effect_frame i s
  exact ⟨effect i s, exec_eq_effect i s, hbusy, hdone, hie, hwerr, hcmd, hnrounds, hlen, hiv, hblkIn, hparams, hrstN,
    fun hi => effect_valid_of_ne_padCheck hi s, hown⟩

/-- Settles O41: the effect of NOP is the completion alone. -/
theorem nopOnlyCompletes : Obligations.NopOnlyCompletes := exec_eq_effect .nop

/-! ### The engine's step -/

/-- A step with an empty agenda while a command is in flight (R112, R114). -/
theorem step_nil_engine {s : State} (hr : s.rstN = true) (hb : s.busy = true) (h : s.agenda = []) :
    step s = .next (completion s) := by
  rw [step_nil h, if_pos ⟨hr, hb⟩]

/-- Settles O7: both forms of the agenda give the engine its turn, and a completion is the decoded command's effect. -/
theorem stepRunsTheDecodedCommand : Obligations.StepRunsTheDecodedCommand := by
  intro s i rest hr hb hd
  refine ⟨fun hag => ?_, fun hag => ?_⟩
  · rw [step_nil_engine hr hb hag, completion_of_decode hd, exec_eq_effect]
  · rw [step_engine hr hb hag, completion_of_decode (by exact hd), exec_eq_effect]
    rfl

/-- Settles O8: the invariant's coherence clause says that the snapshot is the live operands. -/
theorem inFlightOperandsAreTheLiveOnes : Obligations.InFlightOperandsAreTheLiveOnes := by
  intro s hinv hb
  obtain ⟨-, -, hcoherent, -⟩ := hinv
  obtain ⟨-, -, -, hsnap⟩ := hcoherent hb
  exact State.atAcceptance_of_coherent hsnap

/-! ### Acceptance -/

/-- While BUSY = 1 a write of CMD is dropped and sets WERR (R29, R66). -/
theorem writeBusy_cmd (v : Word) (s : State) : writeBusy (.reg .cmd) v s = { s with werr := true } :=
  (if_neg (by decide)).trans (if_neg (by decide))

/-- Settles O22: an acceptance while idle, a dropped write while BUSY. -/
theorem writeOfCmdIsAcceptance : Obligations.WriteOfCmdIsAcceptance := by
  intro s w rest hr hag
  refine ⟨fun hb => ?_, fun hb => ?_⟩
  · rw [step_accept hr hb hag, if_congr (extractLsb'_opField w 0x6) rfl rfl]
    rfl
  · have hloc : locate s.params (0x1410 : BitVec 14).toNat = .reg .cmd := locate_eq_cmd.mpr rfl
    rw [step_wr_busy hr hb (by decide) hag, hloc, writeBusy_cmd]
    rfl

/-! ### A command in flight completes -/

/-- An event that is no reset completes the command in flight, or leaves it in flight and the agenda as it is (R66, R110,
R211). -/
theorem after_inFlight {e : Event} {s : State} (he : e.isReset = false) (hr : s.rstN = true) (hb : s.busy = true) :
    ((after e s).busy = false ∧ (after e s).done = true)
      ∨ ((after e s).rstN = true ∧ (after e s).busy = true ∧ (after e s).agenda = s.agenda) := by
  cases e with
  | access a =>
    refine .inr ?_
    simp only [after]
    rw [hostAccess_busy_frame hb]
    exact ⟨hr, hb, rfl⟩
  | engine | accessWithCompletion a =>
    simp only [after]
    rw [if_pos ⟨hr, hb⟩]
    exact .inl (completion_busy_done _)
  | releaseReset => exact .inr ⟨rfl, hb, rfl⟩
  | resetEdge | powerOn => cases he

/-- Settles O12, by induction on the agenda: its next event completes the command or leaves it in flight, and once the agenda
is empty the engine has its turn. -/
theorem acceptedCommandCompletes : Obligations.AcceptedCommandCompletes := by
  intro s
  generalize hag : s.agenda = es
  induction es generalizing s with
  | nil =>
    intro hr hb _
    exact ⟨1, completion s, le_rfl, core_run_succ (step_nil_engine hr hb hag), completion_busy_done s⟩
  | cons e rest ih =>
    intro hr hb hes
    have hstep := step_cons hag
    obtain ⟨he, hrest⟩ := List.forall_mem_cons.mp hes
    rcases after_inFlight (s := s.putAgenda rest) he hr hb with hdone | ⟨hr', hb', hag'⟩
    · exact ⟨1, _, by omega, core_run_succ hstep, hdone⟩
    · obtain ⟨k, t, hk, hrun, hdone⟩ := ih _ hag' hr' hb' hrest
      exact ⟨k + 1, t, Nat.succ_le_succ hk, (core_run_succ hstep).trans hrun, hdone⟩

end Sys2Proof.Machine
end

section
/-! SUPPORT. The round function as arithmetic on numbers, and RF_EVAL (41_round_function.md R130, R131). -/

namespace Sys2Proof.Machine

/-! ### Bytes, words and table entries as numbers -/

/-- Byte `i` of a word is its digit `i` in base 256 (R11). -/
theorem byteOf_toNat (w : Word) (i : Nat) : (byteOf w i).toNat = w.toNat / 256 ^ i % 256 := by
  simp [byteOf, Nat.shiftRight_eq_div_pow, pow_mul]

/-- The number four bytes pack to (R61). -/
theorem wordOfBytes_toNat (b0 b1 b2 b3 : Byte) :
    (wordOfBytes b0 b1 b2 b3).toNat
      = b0.toNat + 256 * b1.toNat + 65536 * b2.toNat + 16777216 * b3.toNat := by
  unfold wordOfBytes
  simp only [BitVec.toNat_append]
  rw [← Nat.shiftLeft_add_eq_or_of_lt b2.isLt, ← Nat.shiftLeft_add_eq_or_of_lt b1.isLt,
    ← Nat.shiftLeft_add_eq_or_of_lt b0.isLt]
  simp only [Nat.shiftLeft_eq]
  omega

/-- The little-endian number at entry `e` of table `t` (R41, R61). -/
theorem sbox_toNat (m : Memory) (t e : Nat) :
    (m.sbox t e).toNat = (m.byte (0x400 * t + 4 * e)).toNat + 256 * (m.byte (0x400 * t + 4 * e + 1)).toNat
      + 65536 * (m.byte (0x400 * t + 4 * e + 2)).toNat + 16777216 * (m.byte (0x400 * t + 4 * e + 3)).toNat :=
  wordOfBytes_toNat ..

/-! ### The round function -/

/-- Add, then XOR, then add, on the table entries as numbers; both additions wrap (R130, R132). -/
theorem roundFunction_toNat (m : Memory) (k d : Word) :
    (roundFunction m k d).toNat
      = ((((m.sbox 0 (byteOf (k ^^^ d) 0).toNat).toNat + (m.sbox 1 (byteOf (k ^^^ d) 1).toNat).toNat) % 2 ^ 32
          ^^^ (m.sbox 2 (byteOf (k ^^^ d) 2).toNat).toNat)
        + (m.sbox 3 (byteOf (k ^^^ d) 3).toNat).toNat) % 2 ^ 32 := by
  simp only [roundFunction, BitVec.toNat_add, BitVec.toNat_xor]

/-- Settles O42: each byte of k XOR d is its digit in base 256, and each table entry the number of its four RAM bytes. -/
theorem roundFunctionArithmetic : Obligations.RoundFunctionArithmetic := by
  intro m k d t entry ht hentry
  have hsbox : ∀ i, i < 4 → (m.sbox i (byteOf (k ^^^ d) i).toNat).toNat = entry i := by
    intro i hi
    rw [byteOf_toNat, ← ht i hi, sbox_toNat, hentry i hi]
  rw [roundFunction_toNat, hsbox 0 (by decide), hsbox 1 (by decide), hsbox 2 (by decide), hsbox 3 (by decide)]

/-! ### RF_EVAL -/

/-- The effect of RF_EVAL on an implemented key index (R131). -/
theorem effect_rfEval_of_lt {k : Nat} {s : State} (h : k < s.params.keyDepth) :
    effect (.rfEval k) s = (s.putRfOut (roundFunction s.mem (s.mem.key k) s.blkIn.R)).complete .none := if_pos h

/-- The effect of RF_EVAL on a key index past the key RAM: the error alone (R131, R203). -/
theorem effect_rfEval_of_le {k : Nat} {s : State} (h : s.params.keyDepth ≤ k) :
    effect (.rfEval k) s = s.complete .badKidx := if_neg (by omega)

/-- Settles O43, by the key index's two cases. -/
theorem rfEvalEvaluatesTheRoundFunction : Obligations.RfEvalEvaluatesTheRoundFunction := by
  intro k s
  refine ⟨fun h => ?_, fun h => ?_⟩
  · rw [exec_eq_effect, effect_rfEval_of_lt h]
    rfl
  · rw [exec_eq_effect, effect_rfEval_of_le h]
    rfl

end Sys2Proof.Machine
end

section
/-! SUPPORT. The Feistel engine's commands (42_feistel.md R142 to R148): the halves after each round, ECB_ENC and ECB_DEC,
that each undoes the other, and decode as encode on exchanged halves. -/

namespace Sys2Proof.Machine

/-! ### The halves after each round -/

/-- Any halves that follow the encode rounds of R142 are the block after each of them. -/
theorem encBlock_eq_halves {m : Memory} {n : Nat} {b : Block} {L R : Nat → Word} (hL : L 0 = b.L) (hR : R 0 = b.R)
    (hround : ∀ i, i < n → L (i + 1) = R i ∧ R (i + 1) = L i ^^^ roundFunction m (m.key i) (R i)) :
    encBlock m n b = ⟨L n, R n⟩ := by
  induction n with
  | zero => rw [encBlock_zero, hL, hR]
  | succ n ih =>
    obtain ⟨hL', hR'⟩ := hround n n.lt_succ_self
    rw [encBlock_succ, ih fun i hi => hround i (Nat.lt_succ_of_lt hi), hL', hR']
    rfl

/-- After `i` decode rounds of R143 the rounds left are the decode under the first `n - i` keys. -/
theorem decBlock_eq_decBlock_halves {m : Memory} {n : Nat} {b : Block} {L R : Nat → Word} (hL : L 0 = b.L)
    (hR : R 0 = b.R)
    (hround : ∀ i, i < n →
      L (i + 1) = R i ^^^ roundFunction m (m.key (n - 1 - i)) (L i) ∧ R (i + 1) = L i)
    {i : Nat} (hi : i ≤ n) : decBlock m n b = decBlock m (n - i) ⟨L i, R i⟩ := by
  induction i with
  | zero => rw [hL, hR, Nat.sub_zero]
  | succ i ih =>
    obtain ⟨hL', hR'⟩ := hround i hi
    have hleft : n - i = (n - 1 - i) + 1 := by omega
    have hnext : n - (i + 1) = n - 1 - i := by omega
    rw [ih (Nat.le_of_lt hi), hleft, decBlock_succ, hnext, hL', hR']
    rfl

/-- Any halves that follow the decode rounds of R143 end in the decoded block. -/
theorem decBlock_eq_halves {m : Memory} {n : Nat} {b : Block} {L R : Nat → Word} (hL : L 0 = b.L) (hR : R 0 = b.R)
    (hround : ∀ i, i < n →
      L (i + 1) = R i ^^^ roundFunction m (m.key (n - 1 - i)) (L i) ∧ R (i + 1) = L i) :
    decBlock m n b = ⟨L n, R n⟩ := by
  rw [decBlock_eq_decBlock_halves hL hR hround le_rfl, Nat.sub_self, decBlock_zero]

/-! ### ECB_ENC and ECB_DEC -/

/-- The effect of ECB_ENC with a legal round count (R145). -/
theorem effect_ecbEnc_of_legal {s : State} (h : s.roundsLegal) :
    effect .ecbEnc s = { s with
      blkOut := encBlock s.mem s.nrounds.toNat s.blkIn
      half := encBlock s.mem s.nrounds.toNat s.blkIn, roundCounter := s.nrounds.toNat - 1
      err := .none, busy := false, done := true } := if_pos h

/-- The effect of ECB_DEC with a legal round count (R146). -/
theorem effect_ecbDec_of_legal {s : State} (h : s.roundsLegal) :
    effect .ecbDec s = { s with
      blkOut := decBlock s.mem s.nrounds.toNat s.blkIn
      half := decBlock s.mem s.nrounds.toNat s.blkIn, roundCounter := 0
      err := .none, busy := false, done := true } := if_pos h

/-- Settles O44: BLK_OUT is the encoded block, which the given halves reach after N rounds. -/
theorem ecbEncRunsTheRounds : Obligations.EcbEncRunsTheRounds := by
  intro s L R hlegal hL hR hround
  refine ⟨effect .ecbEnc s, exec_eq_effect .ecbEnc s, ?_⟩
  rw [effect_ecbEnc_of_legal hlegal, encBlock_eq_halves hL hR hround]

/-- Settles O45: BLK_OUT is the decoded block, which the given halves reach after N rounds. -/
theorem ecbDecRunsTheRoundsBackwards : Obligations.EcbDecRunsTheRoundsBackwards := by
  intro s L R hlegal hL hR hround
  refine ⟨effect .ecbDec s, exec_eq_effect .ecbDec s, ?_⟩
  rw [effect_ecbDec_of_legal hlegal, decBlock_eq_halves hL hR hround]

/-- Settles O46: the first command keeps NROUNDS and the RAMs, so the second runs the inverse of the first on its output. -/
theorem ecbRoundTrips : Obligations.EcbRoundTrips := by
  intro s hlegal
  refine ⟨⟨_, _, exec_eq_effect .ecbEnc s, exec_eq_effect .ecbDec _, ?_⟩,
    ⟨_, _, exec_eq_effect .ecbDec s, exec_eq_effect .ecbEnc _, ?_⟩⟩
  · rw [effect_ecbEnc_of_legal hlegal, effect_ecbDec_of_legal (by exact hlegal)]
    exact ⟨decBlock_encBlock .., rfl, rfl⟩
  · rw [effect_ecbDec_of_legal hlegal, effect_ecbEnc_of_legal (by exact hlegal)]
    exact ⟨encBlock_decBlock .., rfl, rfl⟩

/-! ### Decode as encode on exchanged halves -/

/-- Exchanging the halves turns the decode rounds under a key sequence into encode rounds under the reversed one, whatever
the round function is (R148). -/
theorem feistelDec_eq_swap_feistelEnc (rf : Word → Word → Word) (keys : List Word) (b : Block) :
    feistelDec rf keys b = (feistelEnc rf keys.reverse b.swap).swap :=
  List.foldl_hom (g₁ := encRound rf) (init := b.swap) Block.swap fun c k => decRound_eq_swap rf c.swap k

/-- Settles O47: the exchange of halves, with the round function and the keys of the RAMs. -/
theorem decodeIsSwappedEncode : Obligations.DecodeIsSwappedEncode := fun m n b =>
  feistelDec_eq_swap_feistelEnc (roundFunction m) (keySchedule m n) b

end Sys2Proof.Machine
end

section
/-! SUPPORT. The CBC controller's commands (43_cbc.md R160 to R179): the block commands and the messages they chain, the length
checks, CBC_ENC's padding and chaining, CBC_DEC_RAW and CBC_DEC, and that decode of the encoded buffer is the padded message. -/

namespace Sys2Proof.Machine

/-! ### The block commands -/

theorem feedback_eq_ite (sel : Feedback) (s : State) : feedback sel s = if sel = .iv then s.iv else s.chain := by
  cases sel <;> rfl

/-- The effect of CBC_ENC_BLK with a legal round count (R165). -/
theorem effect_cbcEncBlk_of_legal {sel : Feedback} {s : State} {c : Block} (h : s.roundsLegal)
    (hc : c = encBlock s.mem s.nrounds.toNat (s.blkIn.xor (feedback sel s))) :
    effect (.cbcEncBlk sel) s = { s with
      blkOut := c, chain := c, half := c, roundCounter := s.nrounds.toNat - 1, blockIndex := 0
      prevLatch := feedback sel s, err := .none, busy := false, done := true } := by
  simp only [effect, if_pos h, ← hc]
  apply State.ext <;> simp

/-- The effect of CBC_DEC_BLK with a legal round count (R166). -/
theorem effect_cbcDecBlk_of_legal {sel : Feedback} {s : State} {d : Block} (h : s.roundsLegal)
    (hd : d = decBlock s.mem s.nrounds.toNat s.blkIn) :
    effect (.cbcDecBlk sel) s = { s with
      blkOut := d.xor (feedback sel s), chain := s.blkIn, half := d, roundCounter := 0, blockIndex := 0
      prevLatch := feedback sel s, saveLatch := s.blkIn, err := .none, busy := false, done := true } := by
  simp only [effect, if_pos h, ← hd]
  apply State.ext <;> simp

/-- Settles O48: the effect of the command, with the feedback select written out. -/
theorem cbcEncBlkEncodesOneBlock : Obligations.CbcEncBlkEncodesOneBlock := by
  intro s sel hlegal
  refine ⟨_, _, exec_eq_effect (.cbcEncBlk sel) s, rfl, ?_⟩
  rw [← feedback_eq_ite, effect_cbcEncBlk_of_legal hlegal rfl]
  rfl

/-- Settles O49: the effect of the command, with the feedback select written out. -/
theorem cbcDecBlkDecodesOneBlock : Obligations.CbcDecBlkDecodesOneBlock := by
  intro s sel hlegal
  refine ⟨_, _, exec_eq_effect (.cbcDecBlk sel) s, rfl, ?_⟩
  rw [← feedback_eq_ite, effect_cbcDecBlk_of_legal hlegal rfl]
  rfl

/-! ### Messages by block commands -/

/-- One more block: the command runs on it, and the rest of the message runs on from CHAIN (R168). -/
theorem runBlockCommands_cons {command : Feedback → Instr} {sel : Feedback} {b : Block} {rest out : List Block}
    {s t : State}
    (h : runBlockCommands command .chain rest (effect (command sel) { s with blkIn := b }) = some (out, t)) :
    runBlockCommands command sel (b :: rest) s
      = some ((effect (command sel) { s with blkIn := b }).blkOut :: out, t) := by
  rw [runBlockCommands, exec_eq_effect]
  exact congrArg (Option.map _) h

/-- CBC_ENC_BLK leaves the ciphertext block in CHAIN, which is the feedback R163 asks for at the next block. -/
theorem runBlockCommands_cbcEncBlk (sel : Feedback) (blocks : List Block) {s : State} (h : s.roundsLegal) :
    ∃ t, runBlockCommands .cbcEncBlk sel blocks s
      = some (cbcCiphertext (encBlock s.mem s.nrounds.toNat) (feedback sel s) blocks, t) := by
  induction blocks generalizing sel s with
  | nil => exact ⟨s, rfl⟩
  | cons b rest ih =>
    have heffect := effect_cbcEncBlk_of_legal (sel := sel) (s := { s with blkIn := b }) h rfl
    obtain ⟨t, ht⟩ := ih .chain (s := effect (.cbcEncBlk sel) { s with blkIn := b }) (by rw [heffect]; exact h)
    refine ⟨t, (runBlockCommands_cons ht).trans ?_⟩
    rw [heffect]
    rfl

/-- CBC_DEC_BLK leaves the ciphertext block in CHAIN, which is the feedback R164 asks for at the next block. -/
theorem runBlockCommands_cbcDecBlk (sel : Feedback) (blocks : List Block) {s : State} (h : s.roundsLegal) :
    ∃ t, runBlockCommands .cbcDecBlk sel blocks s
      = some (cbcPlaintext (decBlock s.mem s.nrounds.toNat) (feedback sel s) blocks, t) := by
  induction blocks generalizing sel s with
  | nil => exact ⟨s, rfl⟩
  | cons b rest ih =>
    have heffect := effect_cbcDecBlk_of_legal (sel := sel) (s := { s with blkIn := b }) h rfl
    obtain ⟨t, ht⟩ := ih .chain (s := effect (.cbcDecBlk sel) { s with blkIn := b }) (by rw [heffect]; exact h)
    refine ⟨t, (runBlockCommands_cons ht).trans ?_⟩
    rw [heffect]
    rfl

/-- Settles O50: the first feedback is IV, and each command's CHAIN is the next one's feedback. -/
theorem blockCommandsChainLikeCbc : Obligations.BlockCommandsChainLikeCbc := fun _ blocks hlegal =>
  ⟨runBlockCommands_cbcEncBlk .iv blocks hlegal, runBlockCommands_cbcDecBlk .iv blocks hlegal⟩

/-! ### The buffer commands' checks -/

/-- The effect of CBC_ENC on a plaintext shorter than the buffer (R170, R171). -/
theorem effect_cbcEnc_of_legal {s : State} (hr : s.roundsLegal) (hl : s.len.toNat < s.params.msgBytes) :
    effect .cbcEnc s = (encodeBuffer s.nrounds.toNat s.len.toNat s).complete .none := (if_pos hr).trans (if_pos hl)

theorem effect_cbcEnc_of_badLen {s : State} (hr : s.roundsLegal) (hl : s.params.msgBytes ≤ s.len.toNat) :
    effect .cbcEnc s = s.complete .badLen := (if_pos hr).trans (if_neg (by omega))

/-- The effect of CBC_DEC_RAW on whole blocks (R175, R176). -/
theorem effect_cbcDecRaw_of_legal {s : State} (hr : s.roundsLegal)
    (hl : s.len.toNat ≠ 0 ∧ s.len.toNat % 8 = 0 ∧ s.len.toNat ≤ s.params.msgBytes) :
    effect .cbcDecRaw s = ((decodeBuffer s.nrounds.toNat s.len.toNat s).putOutLen s.len.toNat).complete .none :=
  (if_pos hr).trans (if_pos hl)

theorem effect_cbcDecRaw_of_badLen {s : State} (hr : s.roundsLegal)
    (hl : s.len.toNat = 0 ∨ s.len.toNat % 8 ≠ 0 ∨ s.params.msgBytes < s.len.toNat) :
    effect .cbcDecRaw s = s.complete .badLen := (if_pos hr).trans (if_neg (by omega))

theorem effect_cbcDec_of_badLen {s : State} (hr : s.roundsLegal)
    (hl : s.len.toNat = 0 ∨ s.len.toNat % 8 ≠ 0 ∨ s.params.msgBytes < s.len.toNat) :
    effect .cbcDec s = s.complete .badLen := (if_pos hr).trans (if_neg (by omega))

/-- The effect of CBC_DEC on whole blocks whose last decoded byte is `p` in 1..8 (R177, R178). -/
theorem effect_cbcDec_of_goodPad {s : State} {p : Nat} (hr : s.roundsLegal)
    (hl : s.len.toNat ≠ 0 ∧ s.len.toNat % 8 = 0 ∧ s.len.toNat ≤ s.params.msgBytes)
    (hlast : ((decodeBuffer s.nrounds.toNat s.len.toNat s).mem.msg (s.len.toNat - 1)).toNat = p)
    (hp : 1 ≤ p ∧ p ≤ 8) :
    effect .cbcDec s
      = ((decodeBuffer s.nrounds.toNat s.len.toNat s).putOutLen (s.len.toNat - p)).complete .none := by
  subst hlast
  exact (if_pos hr).trans ((if_pos hl).trans (if_pos hp))

/-- The effect of CBC_DEC on whole blocks whose last decoded byte is out of range (R177, R178). -/
theorem effect_cbcDec_of_badPad {s : State} {p : Nat} (hr : s.roundsLegal)
    (hl : s.len.toNat ≠ 0 ∧ s.len.toNat % 8 = 0 ∧ s.len.toNat ≤ s.params.msgBytes)
    (hlast : ((decodeBuffer s.nrounds.toNat s.len.toNat s).mem.msg (s.len.toNat - 1)).toNat = p)
    (hp : p = 0 ∨ 8 < p) :
    effect .cbcDec s = ((decodeBuffer s.nrounds.toNat s.len.toNat s).putOutLen 0).complete .badPad := by
  subst hlast
  exact (if_pos hr).trans ((if_pos hl).trans (if_neg (by omega)))

/-- Settles O40: each length check fails before the first write. -/
theorem badLengthFailsBeforeAnyWrite : Obligations.BadLengthFailsBeforeAnyWrite := by
  intro s hlegal
  refine ⟨fun hl => ?_, fun hl => ⟨?_, ?_⟩⟩ <;> rw [exec_eq_effect]
  · rw [effect_cbcEnc_of_badLen hlegal hl]
    rfl
  · rw [effect_cbcDecRaw_of_badLen hlegal hl]
    rfl
  · rw [effect_cbcDec_of_badLen hlegal hl]
    rfl

/-! ### CBC_ENC -/

/-- The RAMs with the padding of R161 after an `n`-byte message. -/
def Memory.padded (m : Memory) (n : Nat) : Memory := m.fillMsg n (BitVec.ofNat 8 (padLen n)) (padLen n)

/-- The padded message: the message's bytes, then p bytes of value p (R161). -/
theorem msg_padded (m : Memory) {n x : Nat} (hx : x < n + padLen n) :
    (m.padded n).msg x = if x < n then m.msg x else BitVec.ofNat 8 (padLen n) := by
  rw [Memory.msg, Memory.padded, byte_fillMsg]
  by_cases h : x < n
  · rw [if_pos h, if_neg (by unfold msgAddr; omega), Memory.msg]
  · rw [if_neg h, if_pos (by unfold msgAddr; omega)]

/-- A block with the bytes of the padded message is its block (R161). -/
theorem eq_block_padded {m : Memory} {n b : Nat} {P : Block} (hb : b < (n + padLen n) / 8)
    (hP : ∀ j, j < 8 → P.byte j = if 8 * b + j < n then m.msg (8 * b + j) else BitVec.ofNat 8 (padLen n)) :
    P = (m.padded n).block b :=
  block_ext fun j hj => by rw [hP j hj, byte_block _ _ _ hj, msg_padded m (by omega)]

/-- Block by block (R163). -/
theorem block_encodeBuffer (rounds n : Nat) (s : State) {b : Nat} (hb : b < (n + padLen n) / 8) :
    (encodeBuffer rounds n s).mem.block b
      = encBlock s.mem rounds (((s.mem.padded n).block b).xor
          (if b = 0 then s.iv else (encodeBuffer rounds n s).mem.block (b - 1))) :=
  block_encryptBlocks _ _ _ _ _ (Nat.zero_le b) (by omega)

/-- OUT_LEN holds the padded length, which is at most MSG_BYTES (R7, R170). -/
theorem encodeBuffer_outLen_toNat {rounds n : Nat} {s : State} (hp : s.params.legal) (hn : n < s.params.msgBytes) :
    (encodeBuffer rounds n s).outLen.toNat = n + padLen n := by
  obtain ⟨-, -, h8, -, hmax⟩ := hp
  have hfits := (padLen_fits h8).mpr hn
  rw [encodeBuffer_outLen, BitVec.toNat_ofNat, Nat.mod_eq_of_lt (by omega)]

/-- Settles O51: the frame, the blocks and the outside of the encoded buffer, each a law of `encodeBuffer`. -/
theorem cbcEncPadsAndChains : Obligations.CbcEncPadsAndChains := by
  rintro s n p m hp hr rfl hn hpad rfl
  obtain rfl : p = padLen s.len.toNat := hpad
  refine ⟨_, exec_eq_effect .cbcEnc s, ?_⟩
  rw [effect_cbcEnc_of_legal hr hn]
  simp only [State.complete_mem, State.complete_outLen]
  refine ⟨?_, encodeBuffer_outLen_toNat hp hn, fun b hb P hP => ?_, fun a ha => ?_⟩
  · rw [← encodeBuffer_chain]
    apply State.ext <;> simp
  · rw [eq_block_padded hb hP]
    exact block_encodeBuffer _ _ _ hb
  · exact byte_encodeBuffer_outside _ _ _ ha

/-! ### CBC_DEC_RAW and CBC_DEC -/

/-- A completion after the decode of the buffer: CHAIN is the last ciphertext block, and besides the RAMs, OUT_LEN, STATUS and
hidden registers nothing changes (R176, R178). -/
theorem decodeBuffer_complete_frame {rounds n : Nat} (s : State) (h0 : n ≠ 0) (h8 : n % 8 = 0) (k : Nat)
    (c : ErrCode) :
    ((decodeBuffer rounds n s).putOutLen k).complete c = { s with
      mem := (decodeBuffer rounds n s).mem, chain := s.mem.block (n / 8 - 1), outLen := BitVec.ofNat 14 k, err := c
      busy := false, done := true, half := (decodeBuffer rounds n s).half
      roundCounter := (decodeBuffer rounds n s).roundCounter, blockIndex := (decodeBuffer rounds n s).blockIndex
      prevLatch := (decodeBuffer rounds n s).prevLatch, saveLatch := (decodeBuffer rounds n s).saveLatch } := by
  apply State.ext <;> simp [decodeBuffer_chain s h0 h8]

/-- Settles O52: the frame, the blocks and the outside of the decoded buffer, each a law of `decodeBuffer`. -/
theorem cbcDecRawChainsOnCiphertext : Obligations.CbcDecRawChainsOnCiphertext := by
  rintro s n - hr rfl h0 h8 hn
  refine ⟨_, exec_eq_effect .cbcDecRaw s, ?_⟩
  rw [effect_cbcDecRaw_of_legal hr ⟨h0, h8, hn⟩, decodeBuffer_complete_frame s h0 h8]
  refine ⟨?_, fun b hb => block_decodeBuffer s.nrounds.toNat s.len.toNat s hb,
    fun a ha => byte_decodeBuffer_outside s.nrounds.toNat s.len.toNat s h8 ha⟩
  rw [BitVec.ofNat_toNat, BitVec.setWidth_eq]

/-- Settles O53: the decode of CBC_DEC_RAW, then the two ranges of the last decoded byte. -/
theorem cbcDecStripsByTheLastByte : Obligations.CbcDecStripsByTheLastByte := by
  rintro s n ⟨-, -, -, -, hmax⟩ hr rfl h0 h8 hn
  refine ⟨_, exec_eq_effect .cbcDec s, ?_⟩
  generalize hlast : ((decodeBuffer s.nrounds.toNat s.len.toNat s).mem.msg (s.len.toNat - 1)).toNat = p
  have hblocks b := block_decodeBuffer s.nrounds.toNat s.len.toNat s (b := b)
  have houtside a := byte_decodeBuffer_outside s.nrounds.toNat s.len.toNat s (x := a) h8
  by_cases hp : 1 ≤ p ∧ p ≤ 8
  · rw [effect_cbcDec_of_goodPad hr ⟨h0, h8, hn⟩ hlast hp, decodeBuffer_complete_frame s h0 h8]
    refine ⟨rfl, .inl ⟨rfl, ?_⟩, hblocks, houtside⟩
    simp only [hlast, BitVec.toNat_ofNat]
    omega
  · have hbad : p = 0 ∨ 8 < p := by omega
    rw [effect_cbcDec_of_badPad hr ⟨h0, h8, hn⟩ hlast hbad, decodeBuffer_complete_frame s h0 h8]
    exact ⟨rfl, .inr ⟨rfl, rfl, by rw [hlast]; exact hbad⟩, hblocks, houtside⟩

/-! ### The round trip -/

/-- MSG[x] is byte `x mod 8` of block `x / 8` (R12). -/
theorem msg_eq_byte_block (m : Memory) (x : Nat) : m.msg x = (m.block (x / 8)).byte (x % 8) := by
  rw [byte_block _ _ _ (Nat.mod_lt x (by decide)), Nat.div_add_mod]

/-- The encode writes neither tables nor keys, so the decode after it runs the inverse of the encode's rounds (R144). -/
theorem decBlock_encodeBuffer {rounds : Nat} (n : Nat) (s : State) (hr : rounds ≤ 256) :
    decBlock (encodeBuffer rounds n s).mem rounds = decBlock s.mem rounds :=
  decBlock_congr hr fun _ ha => byte_encodeBuffer_outside rounds n s (.inl (by unfold msgAddr; omega))

/-- Decode of the encoded buffer gives the padded message, block by block (R163, R164). -/
theorem block_decodeBuffer_encodeBuffer {rounds n b : Nat} {s t : State} (hr : rounds ≤ 256)
    (hmem : t.mem = (encodeBuffer rounds n s).mem) (hiv : t.iv = s.iv) (hb : b < (n + padLen n) / 8) :
    (decodeBuffer rounds (n + padLen n) t).mem.block b = (s.mem.padded n).block b := by
  rw [block_decodeBuffer _ _ _ hb, hmem, hiv, decBlock_encodeBuffer n s hr]
  conv_lhs => arg 1; rw [block_encodeBuffer _ _ _ hb, decBlock_encBlock]
  exact Block.xor_xor_cancel ..

/-- Decode of the encoded buffer gives the padded message, byte by byte. -/
theorem msg_decodeBuffer_encodeBuffer {rounds n x : Nat} {s t : State} (hr : rounds ≤ 256)
    (hmem : t.mem = (encodeBuffer rounds n s).mem) (hiv : t.iv = s.iv) (hx : x < n + padLen n) :
    (decodeBuffer rounds (n + padLen n) t).mem.msg x
      = if x < n then s.mem.msg x else BitVec.ofNat 8 (padLen n) := by
  have hb := padLen_blocks n
  rw [msg_eq_byte_block, block_decodeBuffer_encodeBuffer hr hmem hiv (by omega), ← msg_eq_byte_block, msg_padded _ hx]

/-- CBC_DEC of an encoded buffer, at its padded length, finds the padding and gives the message's length back (R177, R178). -/
theorem effect_cbcDec_of_encoded {n : Nat} {s t : State} (hr : t.roundsLegal) (h256 : t.nrounds.toNat ≤ 256)
    (hmem : t.mem = (encodeBuffer t.nrounds.toNat n s).mem) (hiv : t.iv = s.iv) (hlen : t.len.toNat = n + padLen n)
    (hfits : n + padLen n ≤ t.params.msgBytes) :
    effect .cbcDec t = ((decodeBuffer t.nrounds.toNat (n + padLen n) t).putOutLen n).complete .none := by
  obtain ⟨hpad1, hpad8⟩ := padLen_bounds n
  have hblocks := padLen_blocks n
  have hlast : ((decodeBuffer t.nrounds.toNat t.len.toNat t).mem.msg (t.len.toNat - 1)).toNat = padLen n := by
    rw [hlen, msg_decodeBuffer_encodeBuffer h256 hmem hiv (by omega), if_neg (by omega), BitVec.toNat_ofNat]
    omega
  rw [effect_cbcDec_of_goodPad hr (by omega) hlast ⟨hpad1, hpad8⟩, hlen, Nat.add_sub_cancel]

/-- Settles O54: the decoded buffer is the padded message, whose last byte is the padding length. -/
theorem cbcRoundTripRestoresTheMessage : Obligations.CbcRoundTripRestoresTheMessage := by
  intro s hp hr hle
  obtain ⟨-, hdepth, h8, hmin, -⟩ := id hp
  have hn : s.len.toNat < s.params.msgBytes := by omega
  have h256 : s.nrounds.toNat ≤ 256 := hr.2.trans hdepth
  refine ⟨_, _, exec_eq_effect .cbcEnc s, exec_eq_effect .cbcDec _, ?_⟩
  rw [effect_cbcEnc_of_legal hr hn]
  generalize hu : { (encodeBuffer s.nrounds.toNat s.len.toNat s).complete .none with
    len := ((encodeBuffer s.nrounds.toNat s.len.toNat s).complete .none).outLen } = u
  have hnrounds : u.nrounds = s.nrounds := by simp [← hu]
  have hparams : u.params = s.params := by simp [← hu]
  have hiv : u.iv = s.iv := by simp [← hu]
  have hmem : u.mem = (encodeBuffer u.nrounds.toNat s.len.toNat s).mem := by rw [hnrounds, ← hu, State.complete_mem]
  have hlen : u.len.toNat = s.len.toNat + padLen s.len.toNat := by
    rw [← hu, State.complete_outLen, encodeBuffer_outLen_toNat hp hn]
  have hru : u.roundsLegal := by simpa only [State.roundsLegal, hnrounds, hparams] using hr
  rw [← hnrounds] at h256
  rw [effect_cbcDec_of_encoded hru h256 hmem hiv hlen (hparams ▸ (padLen_fits h8).mpr hn)]
  refine ⟨State.complete_err .., State.complete_err .., fun j hj => ?_, by simp⟩
  rw [State.complete_mem, State.putOutLen_mem, msg_decodeBuffer_encodeBuffer h256 hmem hiv (by omega), if_pos hj]

end Sys2Proof.Machine
end

section
/-! SUPPORT. The padding validator (44_padding_validator.md R190 to R195): the predicate and the comparison unit, what PAD_CHECK
writes, what of the RAMs the host can learn from it, and that it accepts what CBC_ENC produced. -/

namespace Sys2Proof.Machine

/-! ### The comparison unit -/

/-- What `comparisonUnit` decides: the range check, and for every byte the mask needs that its comparator agrees (R193). -/
theorem comparisonUnit_iff (p : Block) :
    comparisonUnit p = true ↔ (p.byte 7).toNat ≠ 0 ∧ (p.byte 7).toNat ≤ 8
      ∧ ∀ j, j < 8 → 8 - (p.byte 7).toNat ≤ j → p.byte j = p.byte 7 := by
  simp [comparisonUnit, and_assoc, -Nat.not_le, -not_le, ← imp_iff_not_or]

/-- Settles O56: the two ask for one range of the last byte, and then for the same bytes to equal it. -/
theorem comparisonUnitComputesValidity : Obligations.ComparisonUnitComputesValidity := by
  intro P
  rw [Bool.eq_iff_iff, comparisonUnit_iff, validPadding_iff, Nat.one_le_iff_ne_zero]
  exact and_congr_right' (and_congr_right' (forall_congr' fun _ => imp.swap))

/-! ### PAD_CHECK -/

/-- The effect of PAD_CHECK with a legal round count (R190, R192). -/
theorem effect_padCheck_of_legal {s : State} {P : Block} (h : s.roundsLegal)
    (hP : P = (decBlock s.mem s.nrounds.toNat s.blkIn).xor s.iv) :
    effect .padCheck s = { s with
      valid := validPadding P, half := P, roundCounter := 0, err := .none, busy := false, done := true } := by
  subst hP
  exact if_pos h

theorem effect_padCheck_of_badRounds {s : State} (h : ¬ s.roundsLegal) :
    effect .padCheck s = s.complete .badNrounds := if_neg h

/-- Settles O55: the effect of the command, with the predicate of R191 written out. -/
theorem padCheckDecidesThePadding : Obligations.PadCheckDecidesThePadding := by
  intro s P hlegal hP
  refine ⟨effect .padCheck s, exec_eq_effect .padCheck s, ?_⟩
  rw [effect_padCheck_of_legal hlegal hP]
  refine ⟨(validPadding_iff P).trans ?_, rfl⟩
  simp only [Nat.lt_succ_iff]

/-- Settles O58: CBC_DEC_BLK IV gives in BLK_OUT the very block PAD_CHECK decodes. -/
theorem padCheckJudgesTheDecodedBlock : Obligations.PadCheckJudgesTheDecodedBlock := by
  intro s hlegal
  refine ⟨_, _, exec_eq_effect (.cbcDecBlk .iv) s, exec_eq_effect .padCheck s, ?_⟩
  rw [effect_cbcDecBlk_of_legal hlegal rfl, effect_padCheck_of_legal hlegal rfl]
  rfl

/-! ### What the host can learn -/

/-- The RAMs reach the result of PAD_CHECK through VALID and the hidden registers alone: where VALID is the same, other RAMs
make no other difference (R192). -/
theorem effect_padCheck_putMem {s : State} {secret : Memory}
    (hvalid : (effect .padCheck s).valid = (effect .padCheck (s.putMem secret)).valid) :
    ∃ h : Hidden, effect .padCheck (s.putMem secret) = ((effect .padCheck s).putMem secret).withHidden h := by
  by_cases hlegal : s.roundsLegal
  · rw [effect_padCheck_of_legal hlegal rfl, effect_padCheck_of_legal (by exact hlegal) rfl] at hvalid ⊢
    refine ⟨⟨(decBlock secret s.nrounds.toNat s.blkIn).xor s.iv, s.prevLatch, s.saveLatch, 0, s.blockIndex⟩, ?_⟩
    replace hvalid : validPadding _ = validPadding _ := hvalid
    rw [← hvalid]
    rfl
  · rw [effect_padCheck_of_badRounds hlegal, effect_padCheck_of_badRounds (by exact hlegal)]
    exact ⟨⟨s.half, s.prevLatch, s.saveLatch, s.roundCounter, s.blockIndex⟩, rfl⟩

/-- Settles O57: no register and no `irq` shows the RAMs or the hidden registers, in which alone the two results differ. -/
theorem padCheckRevealsOnlyValid : Obligations.PadCheckRevealsOnlyValid := by
  intro s t t' secret ht ht'
  obtain rfl := eq_effect_of_exec ht
  obtain rfl := eq_effect_of_exec ht'
  refine ⟨(effect_of_not_buffer rfl s).1, (effect_of_not_buffer rfl _).1, fun hvalid => ?_⟩
  obtain ⟨h, heq⟩ := effect_padCheck_putMem hvalid
  refine ⟨fun r => ?_, (congrArg State.irq heq).symm⟩
  calc readReg r (effect .padCheck s)
    _ = readReg r (((effect .padCheck s).putMem secret).withHidden h) := by rw [readReg_withHidden, readReg_putMem]
    _ = readReg r (effect .padCheck (s.putMem secret)) := by rw [heq]

/-! ### The ciphertext of CBC_ENC -/

/-- The last block of the padded message carries its padding (R161, R191). -/
theorem validPadding_last_block_padded (m : Memory) (n : Nat) : validPadding ((m.padded n).block (n / 8)) = true := by
  have hbyte : ∀ j, n % 8 ≤ j → j < 8 → ((m.padded n).block (n / 8)).byte j = BitVec.ofNat 8 (padLen n) := by
    intro j hj hj8
    rw [byte_block _ _ _ hj8, msg_padded m (by unfold padLen; omega), if_neg (by omega)]
  have hlast : (((m.padded n).block (n / 8)).byte 7).toNat = 8 - n % 8 := by
    rw [hbyte 7 (by omega) (by omega), BitVec.toNat_ofNat, padLen]
    omega
  rw [validPadding_iff, hlast]
  refine ⟨by omega, by omega, fun j hj hj8 => ?_⟩
  rw [hbyte j (by omega) hj8, hbyte 7 (by omega) (by omega)]

/-- What PAD_CHECK decodes, given a block of the encoded buffer and the block before it (or IV), is the block of the padded
message (R163, R164, R195). -/
theorem decBlock_xor_encodeBuffer {rounds n b : Nat} (s : State) (hr : rounds ≤ 256) (hb : b < (n + padLen n) / 8) :
    (decBlock (encodeBuffer rounds n s).mem rounds ((encodeBuffer rounds n s).mem.block b)).xor
        (if b = 0 then s.iv else (encodeBuffer rounds n s).mem.block (b - 1))
      = (s.mem.padded n).block b := by
  rw [← block_decodeBuffer_encodeBuffer hr rfl (encodeBuffer_iv rounds n s) hb, block_decodeBuffer _ _ _ hb, encodeBuffer_iv]

/-- Settles O59: the block PAD_CHECK decodes is the last one of the padded message. -/
theorem oracleAcceptsGenuineCiphertext : Obligations.OracleAcceptsGenuineCiphertext := by
  rintro s m ⟨-, hdepth, -⟩ hr hn rfl
  refine ⟨_, _, exec_eq_effect .cbcEnc s, exec_eq_effect .padCheck _, ?_⟩
  have hlast : s.len.toNat / 8 < (s.len.toNat + padLen s.len.toNat) / 8 := by rw [padLen_count]; omega
  have hdec := decBlock_xor_encodeBuffer s (hr.2.trans hdepth) hlast
  have hprev : s.len.toNat / 8 + 1 - 2 = s.len.toNat / 8 - 1 := by omega
  simp only [effect_cbcEnc_of_legal hr hn, State.complete_mem, Nat.add_sub_cancel, Nat.add_eq_right, hprev]
  rw [effect_padCheck_of_legal (by simpa using hr) (by simpa using hdec.symm)]
  exact ⟨rfl, validPadding_last_block_padded ..⟩

end Sys2Proof.Machine
end

section
/-! SUPPORT. Exceptions and the interrupt (60_exceptions.md R201 to R203, R210, R211): an access in the cycle of a completion,
what raises and lowers `irq`, and an illegal round count. -/

namespace Sys2Proof.Machine

/-! ### An access in the cycle of a completion -/

/-- A step of the combined event while a command is in flight (R211). -/
theorem step_accessWithCompletion {s : State} {a : Access} {rest : List Event} (hr : s.rstN = true) (hb : s.busy = true)
    (h : s.agenda = .accessWithCompletion a :: rest) :
    step s = .next (completion ((hostAccess a s).putAgenda rest)) := by
  rw [step_cons h, ← hostAccess_putAgenda]
  exact congrArg _ (if_pos ⟨hr, hb⟩)

/-- A step that is an access (R60). -/
theorem step_access {s : State} {a : Access} {rest : List Event} (h : s.agenda = .access a :: rest) :
    step s = .next ((hostAccess a s).putAgenda rest) := by
  rw [step_cons h, ← hostAccess_putAgenda]
  rfl

/-- Settles O11: the access leaves the command in flight, so that the engine's step after it completes the same command. -/
theorem simultaneousAccessComesFirst : Obligations.SimultaneousAccessComesFirst := by
  intro s a rest hr hb hag
  have hboth := step_accessWithCompletion hr hb hag
  have haccess := step_access (s := s.putAgenda (.access a :: .engine :: rest)) rfl
  rw [hostAccess_putAgenda] at haccess
  have hr' : (hostAccess a s).rstN = true := (hostAccess_rstN a s).trans hr
  have hb' : (hostAccess a s).busy = true := by rw [hostAccess_busy_frame hb]; exact hb
  have hengine := step_engine (s := (hostAccess a s).putAgenda (.engine :: rest)) hr' hb' rfl
  exact (core_run_succ hboth).trans ((core_run_succ haccess).trans (core_run_succ hengine)).symm

/-! ### The interrupt -/

/-- CTRL reads IE in bit 0 (R24). -/
theorem ctrl_getLsbD_zero (s : State) : s.ctrl.getLsbD 0 = s.ie := by
  simp [State.ctrl]

theorem irq_of_not_done {s : State} (h : s.done = false) : s.irq = false := by
  simp [State.irq, h]

theorem irq_of_not_ie {s : State} (h : s.ie = false) : s.irq = false := by
  simp [State.irq, h]

/-- A completion leaves `irq` at IE (R112, R210). -/
theorem irq_completion {s : State} (hr : s.rstN = true) : (completion s).irq = s.ie := by
  obtain ⟨-, hrstN, hie, -, hdone, -⟩ := completion_frame s
  simp [State.irq, hrstN, hie, hdone, hr]

/-- Settles O34: the level bit by bit, and then each event by what it does to IE and DONE. -/
theorem irqFollowsEnableAndDone : Obligations.IrqFollowsEnableAndDone := by
  intro s rest hr
  refine ⟨?level, fun hb hie hag => ?completion, fun v hv hag => ?statusWrite, fun v hv hag => ?ctrlWrite,
    fun w hb hag => ?acceptance, fun hag => ?reset⟩
  case level =>
    have hctrl : (readReg .ctrl s).getLsbD 0 = s.ie := ctrl_getLsbD_zero s
    have hstatus : (readReg .status s).getLsbD 1 = s.done := status_getLsbD s 1
    rw [hctrl, hstatus, State.irq, hr, Bool.true_and]
  case completion => exact ⟨_, step_engine hr hb hag, (irq_completion (by exact hr)).trans hie⟩
  case statusWrite =>
    refine ⟨_, step_access hag, irq_of_not_done ?_⟩
    rw [hostAccess_wr_status hr]
    exact if_pos hv
  case ctrlWrite =>
    refine ⟨_, step_access hag, irq_of_not_ie ?_⟩
    rw [hostAccess_wr_ctrl hr]
    exact hv
  case acceptance => exact ⟨_, step_accept hr hb hag, irq_of_not_done rfl⟩
  case reset => exact ⟨_, step_cons hag, irq_of_not_ie rfl⟩

/-! ### An illegal round count -/

/-- With an illegal round count a cipher command completes with E_BAD_NROUNDS alone, whatever the length (R202, R203). -/
theorem effect_of_badRounds {i : Instr} {s : State} (hnop : i ≠ .nop) (hrf : ∀ k, i ≠ .rfEval k)
    (h : ¬ s.roundsLegal) : effect i s = s.complete .badNrounds := by
  cases i with
  | nop => exact absurd rfl hnop
  | rfEval k => exact absurd rfl (hrf k)
  | _ => exact if_neg h

/-- Settles O39: the round check comes first in each of the eight cipher commands. -/
theorem badRoundCountFailsBeforeAnyWrite : Obligations.BadRoundCountFailsBeforeAnyWrite := by
  intro i s hbad hnop hrf
  have hillegal : ¬ s.roundsLegal := by omega
  rw [exec_eq_effect, effect_of_badRounds hnop hrf hillegal]
  rfl

end Sys2Proof.Machine
end

section
/-! SUPPORT. Reset and power-on (70_reset_and_hazards.md R230 to R235): what the two reset events leave, what the machine
does while `rst_n` = 0, and the RAMs byte by byte. -/

namespace Sys2Proof.Machine

/-! ### What a reset leaves -/

/-- The read values of registers at their reset column: only ID and CFG are not 0 (R20, R22, R23). -/
theorem readReg_of_registersAtReset {s : State} (h : s.registersAtReset) (r : Reg) :
    readReg r s = if r = .id then 0x46434531 else if r = .cfg then readReg .cfg s else 0 := by
  obtain ⟨hie, hbusy, hdone, hvalid, hwerr, herr, hcmd, hnrounds, hlen, houtLen, hiv, hblkIn, hblkOut, hchain,
    hrfOut⟩ := h
  cases r with
  | id | cfg => rfl
  | ctrl => simp [readReg, State.ctrl, hie]
  | status => simp [readReg, State.status, hbusy, hdone, hvalid, hwerr, herr, ErrCode.code]
  | _ => simp [readReg, hcmd, hnrounds, hlen, houtLen, hiv, hblkIn, hblkOut, hchain, hrfOut, Block.zero]

/-- What a reset edge and power-on have in common (R230). -/
theorem after_reset {e : Event} (he : e = .resetEdge ∨ e = .powerOn) (s : State) :
    (after e s).registersAtReset ∧ (after e s).rstN = false ∧ (after e s).params = s.params
      ∧ (after e s).agenda = s.agenda := by
  rcases he with rfl | rfl
  · exact ⟨resetEdge_registersAtReset s, rfl, rfl, rfl⟩
  · exact ⟨resetEdge_registersAtReset s, rfl, rfl, rfl⟩

theorem irq_of_inReset {s : State} (h : s.rstN = false) : s.irq = false := by
  simp [State.irq, h]

/-! ### While `rst_n` = 0 -/

/-- An access in reset is ignored (R230). -/
theorem step_access_inReset {s : State} {a : Access} {rest : List Event} (hr : s.rstN = false)
    (h : s.agenda = .access a :: rest) : step s = .next ((s.respond ⟨a.zeroData, none⟩).putAgenda rest) := by
  rw [step_access h, hostAccess_inReset hr]

/-- The engine does nothing in reset (R230). -/
theorem step_engine_inReset {s : State} {rest : List Event} (hr : s.rstN = false) (h : s.agenda = .engine :: rest) :
    step s = .next (s.putAgenda rest) := by
  rw [step_cons h]
  exact congrArg _ (if_neg fun hen => Bool.false_ne_true (hr.symm.trans hen.1))

/-- The release of reset changes the pin alone (R230). -/
theorem step_releaseReset {s : State} {rest : List Event} (h : s.agenda = .releaseReset :: rest) :
    step s = .next (releaseReset (s.putAgenda rest)) := step_cons h

/-- Settles O15, by what the two reset events have in common and what each event does to a machine in reset. -/
theorem resetClearsRegistersAndIgnoresAccesses : Obligations.ResetClearsRegistersAndIgnoresAccesses := by
  intro s e rest he hag
  obtain ⟨hregs, hrstN, hparams, hagenda⟩ := after_reset he (s.putAgenda rest)
  refine ⟨_, step_cons hag, fun r => ?_, hrstN, irq_of_inReset hrstN, hparams, hagenda,
    fun a more => step_access_inReset hrstN rfl, fun more => step_engine_inReset hrstN rfl,
    fun more => step_releaseReset (rest := more) rfl⟩
  have hcfg : readReg .cfg (after e (s.putAgenda rest)) = readReg .cfg s := congrArg cfgWord hparams
  rw [readReg_of_registersAtReset hregs, hcfg]

/-! ### The RAMs -/

/-- The words of the three buffer commands; an illegal word is none, whatever its OP (R94, R231). -/
theorem isBufferWord_iff (w : Word) :
    isBufferWord w = true ↔ decode w = .ok .cbcEnc ∨ decode w = .ok .cbcDecRaw ∨ decode w = .ok .cbcDec := by
  unfold isBufferWord
  cases decode w with
  | ok i => simp [isBufferCommand_iff]
  | error e => simp

/-- A reset that abandons a buffer command draws the message buffer anew and keeps the other RAMs (R231, R232). -/
theorem byte_ramsAfterReset_of_abandoned {s : State} (hb : s.busy = true) (hw : isBufferWord s.cmd = true) (x : Nat) :
    (ramsAfterReset s).byte x = if x < 0x2000 then s.mem.byte x else Config.ramInit s.freeCount x := by
  rw [ramsAfterReset, if_pos (by rw [hb, hw]; rfl), byte_redrawMsg]

/-- Any other reset keeps the RAMs (R232). -/
theorem ramsAfterReset_of_not_abandoned {s : State} (h : ¬ (s.busy = true ∧ isBufferWord s.cmd = true)) :
    ramsAfterReset s = s.mem :=
  if_neg fun h' => h (Bool.and_eq_true_iff.mp h')

/-- Settles O16, by the two cases of R231: a buffer command is abandoned, or none is. -/
theorem resetKeepsRamsButAnAbandonedBuffer : Obligations.ResetKeepsRamsButAnAbandonedBuffer := by
  intro s rest hag
  simp only [← isBufferWord_iff]
  refine ⟨_, step_cons hag, rfl, rfl, rfl, rfl, rfl, rfl, fun x hx => ?kept,
    fun ⟨hb, hw⟩ x hx => ?drawn, fun h x => ?all⟩
  case kept =>
    by_cases h : s.busy = true ∧ isBufferWord s.cmd = true
    · exact (byte_ramsAfterReset_of_abandoned (s := s.putAgenda rest) h.1 h.2 x).trans (if_pos hx)
    · exact congrArg (·.byte x) (ramsAfterReset_of_not_abandoned (s := s.putAgenda rest) h)
  case drawn =>
    exact (byte_ramsAfterReset_of_abandoned (s := s.putAgenda rest) hb hw x).trans (if_neg (Nat.not_lt.mpr hx))
  case all => exact congrArg (·.byte x) (ramsAfterReset_of_not_abandoned (s := s.putAgenda rest) h)

/-- RAMs of which no byte is listed hold one draw, if both parts carry its number (R232). -/
theorem byte_unlisted (epoch x : Nat) : (Memory.mk [] epoch epoch).byte x = Config.ramInit epoch x :=
  congrArg (Config.ramInit · x) (ite_self epoch)

/-- Settles O17: power-on leaves no RAM byte listed, and numbers one draw for all of them. -/
theorem powerOnDrawsEveryRamByte : Obligations.PowerOnDrawsEveryRamByte :=
  fun s _ hag => ⟨_, step_cons hag, byte_unlisted s.freeCount⟩

end Sys2Proof.Machine
end
